-- ==== Sys2Proof/Word.lean ====
section
/-! DEFINITION. The widths of FXBIL's data (spec/00_scope.md R7, R9): every register is 32 bits, a grid
dimension and a cursor coordinate 16 bits, a Sample 8 bits. All of them are unsigned. -/

namespace Sys2Proof

/-- A register, a FixedPoint or a grid-memory address: 32 bits (R7). -/
abbrev Word := BitVec 32

/-- A grid dimension or a cell coordinate: 16 bits (R7, R37). -/
abbrev Half := BitVec 16

/-- A Sample, which is one byte of the grid memory: 8 bits (R7, R66). -/
abbrev Byte := BitVec 8

end Sys2Proof
end

