-- ==== Sys2Proof/Config.lean ====
section
/-! DEFINITION. The implementation parameters of spec/00_scope.md R7. The fixed ones are constants; the two
OPEN ones, REG_BASE and MemOK, are the fields of `Platform`, which stands in the launch state (R234), so that
every statement about all states holds for every platform. The two free values are of the host's reference functions,
which are no part of the block. -/

namespace Sys2Proof

/-- The two kinds of a memory access (R68). -/
inductive AccessKind where
  | read
  | write
deriving DecidableEq, Repr

/-- Addresses `first` to `last` inclusive that the platform refuses for accesses of one kind (R68). -/
structure RefusedRange where
  kind : AccessKind
  first : Word
  last : Word
deriving DecidableEq, Repr

/-- The OPEN parameters (R7): REG_BASE (R61), and MemOK (R68) as the list of what it refuses. A bus address is
a natural number, since the spec gives the host bus no width (log entry 15). -/
structure Platform where
  regBase : Nat
  refused : List RefusedRange
deriving DecidableEq, Repr

/-- DESIGN CHOICE, unsafe (log entries 1 and 2): the platform of `State.reset` has its window at bus address 0
and refuses nothing. The spec leaves both OPEN. -/
def Config.launchPlatform : Platform := { regBase := 0, refused := [] }

/-- DESIGN CHOICE, unsafe (log entry 3): what a byte of grid memory reads as when the memory list does not name
its address. The spec gives the launch contents to the host (R65, R222). -/
def Config.unlistedByte : Byte := 0

/-- DESIGN CHOICE, safe (log entry 27): the free value of the host's scale factor for an empty destination extent,
where R226's ratio does not exist and the spec gives no value. -/
opaque Config.freeScale : Nat → Word

/-- DESIGN CHOICE, safe (log entry 27): the free value of `to_fixed` outside its domain (R118). -/
opaque Config.freeToFixed : ℚ → Word

/-- The register window is 64 bytes (R7, R60). -/
def Config.windowBytes : Nat := 64

/-- The grid memory has 2^32 bytes (R60, ADDR_W = 32 of R7). -/
def Config.gridBytes : Nat := 2 ^ 32

end Sys2Proof
end

