-- ==== Sys2Proof/Syntax.lean ====
section
/-! DEFINITION. The commands of FXBIL, one constructor per row of spec/opcode_table.json (spec/30_encoding.md
R92). A command word has no register, immediate or mode field (R90, R95), so no constructor has an argument. -/

namespace Sys2Proof

/-- A command: what a 32-bit word written to CMD selects (R28, R92). -/
inductive Instr where
  /-- 0x00000000, no operation (R120). -/
  | nop
  /-- 0x00000001, RES becomes the product of OPA and OPB with scale reduction (R121). -/
  | mul
  /-- 0x00000002, RES becomes OPA as a FixedPoint (R122). -/
  | tofix
  /-- 0x00000003, RES becomes OPA and OPB blended with the weight OPC[15:0] (R151). -/
  | lerp
  /-- 0x00000004, RES becomes one destination sample (R152). -/
  | pixel
  /-- 0x00000005, a sweep over the destination grid starts (R153). -/
  | resample
deriving DecidableEq, Repr

end Sys2Proof
end

