-- ==== Sys2Proof/HostSyntax.lean ====
section
/-! DEFINITION. The names of the registers (spec/10_state.md R21) and the lines of a host program
(spec/30_encoding.md R97, R98). -/

namespace Sys2Proof

/-- The fourteen registers of the window, in the order of R21. -/
inductive Reg where
  | ctrl
  | status
  | cmd
  | opa
  | opb
  | opc
  | res
  | scaleX
  | scaleY
  | srcBase
  | srcDim
  | dstBase
  | dstDim
  | faultAddr
deriving DecidableEq, Repr

/-- One line of a host program: the three forms of R97 (a comment is no line here) and the five
pseudo-instructions of R98. -/
inductive HostLine where
  /-- `W <REG>, <value>` -/
  | writeReg (r : Reg) (value : Word)
  /-- `R <REG>` -/
  | readReg (r : Reg)
  /-- `<MNEMONIC>` -/
  | command (i : Instr)
  /-- `WAITIDLE` -/
  | waitIdle
  /-- `CLRSTATUS` -/
  | clrStatus
  /-- `SETSRC <base>, <rows>, <cols>` -/
  | setSrc (base : Word) (rows cols : Nat)
  /-- `SETDST <base>, <rows>, <cols>` -/
  | setDst (base : Word) (rows cols : Nat)
  /-- `SETSCALE <sy>, <sx>` -/
  | setScale (sy sx : Word)
deriving DecidableEq, Repr

end Sys2Proof
end

