-- ==== Sys2Proof/WellFormed.lean ====
section
/-! DEFINITION. Well-formedness. A command has no field, so every command is well formed (spec/30_encoding.md
R90, R95). The checks the spec does make are on a host line's grid extents (R98) and on the platform's REG_BASE
(spec/20_memory.md R61). -/

namespace Sys2Proof

/-- Every command is well formed: its word has no operand field that could be out of range (R90). -/
def Instr.wf : Instr → Bool
  | .nop => true
  | .mul => true
  | .tofix => true
  | .lerp => true
  | .pixel => true
  | .resample => true

/-- In SETSRC and SETDST, rows and cols must each be at most 0xFFFF (R98). -/
def HostLine.wf : HostLine → Bool
  | .writeReg _ _ => true
  | .readReg _ => true
  | .command i => i.wf
  | .waitIdle => true
  | .clrStatus => true
  | .setSrc _ rows cols => decide (rows ≤ 0xFFFF) && decide (cols ≤ 0xFFFF)
  | .setDst _ rows cols => decide (rows ≤ 0xFFFF) && decide (cols ≤ 0xFFFF)
  | .setScale _ _ => true

/-- REG_BASE must be a multiple of 64 (R61). MemOK may be any function (R68). -/
def Platform.wf (p : Platform) : Bool := p.regBase % Config.windowBytes == 0

end Sys2Proof
end

