-- ==== Sys2Proof/Decode.lean ====
section
/-! DEFINITION. The decoder of a command word (spec/30_encoding.md R91), total on every 32-bit word and
rejecting by name, and after it the encoder (R92). -/

namespace Sys2Proof

/-- Why a word is illegal: the two kinds of R93. -/
inductive Illegal where
  /-- `v[31:8] != 0`, whatever the opcode. -/
  | reservedFieldNonzero
  /-- `v[31:8] = 0` and `v[7:0]` in 0x06 to 0xFF. -/
  | unassignedOpcode
deriving DecidableEq, Repr

/-- What a command word decodes to: a command or ILLEGAL (R91). -/
inductive Decoded where
  | cmd (i : Instr)
  | illegal (why : Illegal)
deriving DecidableEq, Repr

/-- The RSVD field, bits [31:8] of a command word (R90). -/
def rsvdField (v : Word) : BitVec 24 := v.extractLsb' 8 24

/-- The OPCODE field, bits [7:0] of a command word (R90). -/
def opcodeField (v : Word) : BitVec 8 := v.extractLsb' 0 8

/-- The opcode map of R91 on the OPCODE field alone. -/
def opcodeMap (op : BitVec 8) : Decoded :=
  match op.toNat with
  | 0x00 => .cmd .nop
  | 0x01 => .cmd .mul
  | 0x02 => .cmd .tofix
  | 0x03 => .cmd .lerp
  | 0x04 => .cmd .pixel
  | 0x05 => .cmd .resample
  | _ => .illegal .unassignedOpcode

/-- `decode(v)` of R91. -/
def decode (v : Word) : Decoded :=
  if rsvdField v ≠ 0 then .illegal .reservedFieldNonzero else opcodeMap (opcodeField v)

/-- The OPCODE of each command (R92). -/
def opcodeOf : Instr → BitVec 8
  | .nop => 0x00
  | .mul => 0x01
  | .tofix => 0x02
  | .lerp => 0x03
  | .pixel => 0x04
  | .resample => 0x05

/-- The command word of R92: RSVD in the upper 24 bits, 0 (R90), above the OPCODE. -/
def encode (i : Instr) : Word := (0 : BitVec 24) ++ opcodeOf i

/-- The host's question: what the decoder reads from the word whose low `nbits` bits are those of `w` and whose
other bits are 0. A command word has one length, 32 bits (R90, R96). -/
def decodeTableWord (nbits w : Nat) : Option Instr :=
  match decode (BitVec.ofNat 32 (w % 2 ^ nbits)) with
  | .cmd i => some i
  | .illegal _ => none

end Sys2Proof
end

