-- ==== Sys2Proof/Machine/State.lean ====
section
/-! DEFINITION. What FXBIL holds (spec/10_state.md R20), the launch state around it (spec/70_reset_and_hazards.md
R234), and the outcomes of a step. Plain data throughout. -/

namespace Sys2Proof.Machine

/-- The grid memory (R65): address and byte pairs in the canonical form `Memory.wf` of Machine/Ops.lean. -/
abbrev Memory := List Host.Cell

/-- The error codes a rule can raise, R191. NONE is no argument of `raise Error`. -/
inductive ErrCode where
  | illegalCmd
  | busyWrite
  | domain
  | memError
deriving DecidableEq, Repr

/-- How wide an access of the register port is (R62). -/
inductive Width where
  | w8
  | w16
  | w32
deriving DecidableEq, Repr

/-- One access of a host to the bus (R61, R62). A value narrower than 32 bits stands in the low bits. -/
inductive PortAccess where
  | read (addr : Nat) (width : Width)
  | write (addr : Nat) (width : Width) (value : Word)
deriving DecidableEq, Repr

/-- What may come next from outside the engine, and who moves (R201, R229). -/
inductive Event where
  /-- A host access to the register port (R229 item 1). -/
  | port (acc : PortAccess)
  /-- The host's WAITIDLE (R98): it polls STATUS until bit [0] reads 0. -/
  | waitIdle
  /-- The engine's turn (R229 item 2). -/
  | engine
  /-- The reset input is asserted (R229 item 3, R220). -/
  | reset
  /-- The host reads a byte of the grid memory on its own path (R225 step 8). -/
  | gridRead (addr : Word)
  /-- The host writes a byte of the grid memory on its own path (R65, R225 step 1). -/
  | gridWrite (addr : Word) (value : Byte)
deriving DecidableEq, Repr

/-- What the latest host access was answered. It is the host's side of the bus, not FXBIL state (R20). -/
inductive Response where
  /-- No answer: no access yet, or one outside the window, which FXBIL does not see (R61). -/
  | none
  /-- A taken read returns the register's 32 bits (R41, R64). -/
  | data (v : Word)
  /-- A write was taken by the port. -/
  | taken
  /-- BusError (R62, R197). -/
  | busError
  /-- A byte of the grid memory, on the host's own path. -/
  | gridByte (b : Byte)
deriving DecidableEq, Repr

/-- The machine and what stands around it. INVENTORY.md lists every field with its rule. -/
structure State where
  /-- CTRL.IRQ_EN, the one stored bit of CTRL (R22). -/
  irqEn : Bool
  /-- STATUS.BUSY (R23); it names the engine's mode (R45). -/
  busy : Bool
  /-- STATUS.DONE (R24). -/
  done : Bool
  /-- STATUS.ERR (R25). -/
  err : Bool
  /-- STATUS.ERRCODE (R26). -/
  errcode : BitVec 4
  /-- OPA (R29). -/
  opa : Word
  /-- OPB (R30). -/
  opb : Word
  /-- OPC (R31). -/
  opc : Word
  /-- RES (R32). -/
  res : Word
  /-- SCALE_X (R33). -/
  scaleX : Word
  /-- SCALE_Y (R33). -/
  scaleY : Word
  /-- SRC_BASE (R34). -/
  srcBase : Word
  /-- SRC_DIM (R35). -/
  srcDim : Word
  /-- DST_BASE (R34). -/
  dstBase : Word
  /-- DST_DIM (R36). -/
  dstDim : Word
  /-- FAULT_ADDR (R38). -/
  faultAddr : Word
  /-- CUR_ROW (R37). -/
  curRow : Half
  /-- CUR_COL (R37). -/
  curCol : Half
  /-- The grid memory (R65), launch state. -/
  mem : Memory
  /-- REG_BASE and MemOK (R7), launch state. -/
  platform : Platform
  /-- The atomic steps still to come, in order (R201, R229; log entry 4). The model's own field. -/
  inbox : List Event
  /-- The answer to the latest host access (log entry 10). The model's own field. -/
  response : Response
deriving DecidableEq, Repr

/-- Reasons a step stops with a fault. There are none: FXBIL takes no trap, and every condition is a recorded
error, a BusError answer or a case the pipeline handles (R190). DEDUCED, log entry 20. -/
inductive Fault where
deriving DecidableEq, Repr

/-- Reasons a step has no meaning. -/
inductive Refusal where
  /-- Raised by an arm of `exec` for an instruction that has no meaning yet. Safe: nothing is claimed of it.
  No arm raises it now. -/
  | notModelled (mnemonic : String)
  /-- Raised by a `gridRead` or `gridWrite` entry with which the host breaks its duty while BUSY = 1 (R85: "A model
  gives the host no move that breaks it"; spec/93_implementation_defined.md P8, refuse). Safe: the run is
  outside the spec. -/
  | hostBreaksGridDuty
deriving DecidableEq, Repr

/-- The machine right after reset (R221), with the launch memory, platform and inbox of log entries 1 to 4
and 10. -/
def State.reset : State :=
  { irqEn := false, busy := false, done := false, err := false, errcode := 0
    opa := 0, opb := 0, opc := 0, res := 0
    scaleX := 0, scaleY := 0, srcBase := 0, srcDim := 0, dstBase := 0, dstDim := 0
    faultAddr := 0, curRow := 0, curCol := 0
    mem := [], platform := Config.launchPlatform, inbox := [], response := .none }

end Sys2Proof.Machine
end

