-- ==== Sys2Proof/Machine/Flags.lean ====
section
/-! DEFINITION. CTRL and STATUS as words, the error codes' bits, and the IRQ output (spec/10_state.md R22 to R27,
R39; spec/60_exceptions.md R191). The arithmetic sets no flag (spec/40_arith.md R116). -/

namespace Sys2Proof.Machine

/-- The value STATUS.ERRCODE records for an error (R191). -/
def ErrCode.bits : ErrCode → BitVec 4
  | .illegalCmd => 1
  | .busyWrite => 2
  | .domain => 3
  | .memError => 4

/-- What a CTRL read returns: `zext_32(x[CTRL.IRQ_EN])` (R22). -/
def ctrlWord (s : State) : Word := (BitVec.ofBool s.irqEn).setWidth 32

/-- What a STATUS read returns: ERRCODE [7:4], 0 [3], ERR [2], DONE [1], BUSY [0], zero-extended (R27). -/
def statusWord (s : State) : Word :=
  (s.errcode ++ (0 : BitVec 1) ++ BitVec.ofBool s.err ++ BitVec.ofBool s.done
    ++ BitVec.ofBool s.busy).setWidth 32

/-- The IRQ output, a level with no state of its own (R39, R204). -/
def irq (s : State) : Bool := s.irqEn && (s.done || s.err)

end Sys2Proof.Machine
end

