-- ==== Sys2Proof/Machine/Fixed.lean ====
section
/-! DEFINITION. The fixed-point arithmetic unit's functions (spec/40_arith.md R110 to R117) and the blend formula
shared by LERP and by both blend stages (spec/41_resampler.md R145, R146, R151). No rounding, no flag, every sum
and difference mod 2^32 (R116, R117). -/

namespace Sys2Proof.Machine

/-- ONE, the FixedPoint for 1.0 (R111). -/
def fixedOne : Word := 0x00010000

/-- UPPER, the mask of the whole part (R112). -/
def upperMask : Word := 0xFFFF0000

/-- LOWER, the mask of the fraction (R112). -/
def lowerMask : Word := 0x0000FFFF

/-- `fxmul(a, b)`: the exact 64-bit product of the zero-extended operands, of which bits [47:16] are kept
(R113). -/
def fxmul (a b : Word) : Word :=
  let p : BitVec 64 := a.setWidth 64 * b.setWidth 64
  p.extractLsb' 16 32

/-- `tofix(n)`: `n[15:0] ++ 0x0000` (R115). -/
def tofix (n : Word) : Word := n.extractLsb' 0 16 ++ (0 : BitVec 16)

/-- `tofix` of a 16-bit grid extent or coordinate, zero-extended (R115, R140, R141). -/
def tofixHalf (n : Half) : Word := tofix (n.setWidth 32)

/-- `tofix` of a Sample, zero-extended (R115, R145, R160). -/
def tofixByte (b : Byte) : Word := tofix (b.setWidth 32)

/-- The two-point blend `fxmul(ONE - f, p) + fxmul(f, q)` mod 2^32 (R145, R146, R151). -/
def blend (f p q : Word) : Word := fxmul (fixedOne - f) p + fxmul f q

end Sys2Proof.Machine
end

