-- ==== Sys2Proof/Machine/Operands.lean ====
section
/-! DEFINITION. Every operand form of spec/30_encoding.md R95: commands read whole registers or the register
fields below, unchanged. -/

namespace Sys2Proof.Machine

/-- SRC_DIM.ROWS, bits [31:16] (R35). -/
def srcRows (s : State) : Half := s.srcDim.extractLsb' 16 16

/-- SRC_DIM.COLS, bits [15:0] (R35). -/
def srcCols (s : State) : Half := s.srcDim.extractLsb' 0 16

/-- DST_DIM.ROWS, bits [31:16] (R36). -/
def dstRows (s : State) : Half := s.dstDim.extractLsb' 16 16

/-- DST_DIM.COLS, bits [15:0] (R36). -/
def dstCols (s : State) : Half := s.dstDim.extractLsb' 0 16

/-- LERP's weight f: `x[OPC] & LOWER` (R151); OPC[31:16] is not used (R31). -/
def lerpWeight (s : State) : Word := s.opc &&& lowerMask

/-- PIXEL's row: OPA[15:0] (R152). -/
def pixelRow (s : State) : Half := s.opa.extractLsb' 0 16

/-- PIXEL's col: OPB[15:0] (R152). -/
def pixelCol (s : State) : Half := s.opb.extractLsb' 0 16

/-- The domain check PIXEL and RESAMPLE share: a zero source extent or a zero scale factor (R195). -/
def sourceOutOfDomain (s : State) : Bool :=
  srcRows s == 0 || srcCols s == 0 || s.scaleX == 0 || s.scaleY == 0

/-- PIXEL's own domain check: `OPA >u 0xFFFF` or `OPB >u 0xFFFF` (R195). -/
def coordsOutOfDomain (s : State) : Bool :=
  decide (s.opa > 0xFFFF) || decide (s.opb > 0xFFFF)

/-- The address of source cell (r, c): `(SRC_BASE + r * SRC_DIM.COLS + c) mod 2^32` (R69, R70). -/
def srcAddr (s : State) (r c : Half) : Word :=
  s.srcBase + r.setWidth 32 * (srcCols s).setWidth 32 + c.setWidth 32

/-- The address of destination cell (r, c): `(DST_BASE + r * DST_DIM.COLS + c) mod 2^32` (R69, R70). -/
def dstAddr (s : State) (r c : Half) : Word :=
  s.dstBase + r.setWidth 32 * (dstCols s).setWidth 32 + c.setWidth 32

/-- Address `a` is one of the `n` consecutive bytes from `base`, taken mod 2^32 (R69). -/
def inRegion (base : Word) (n : Nat) (a : Word) : Bool := decide ((a - base).toNat < n)

/-- Address `a` lies in the source region, `SRC_DIM.ROWS * SRC_DIM.COLS` bytes from SRC_BASE (R69). -/
def inSource (s : State) (a : Word) : Bool :=
  inRegion s.srcBase ((srcRows s).toNat * (srcCols s).toNat) a

/-- Address `a` lies in the destination region, `DST_DIM.ROWS * DST_DIM.COLS` bytes from DST_BASE (R69). -/
def inDest (s : State) (a : Word) : Bool :=
  inRegion s.dstBase ((dstRows s).toNat * (dstCols s).toNat) a

end Sys2Proof.Machine
end

