-- ==== Sys2Proof/Machine/Ops.lean ====
section
/-! DEFINITION. The shared operations: the grid memory (spec/20_memory.md R65 to R68), recording an error and
clearing it (spec/60_exceptions.md R192, R196, R203; FXBIL takes no exception, R190, so this is the one
operation that stands in an exception entry's place, with the W1C write as the return beside it), the state
changes of a sweep (spec/41_resampler.md R153 to R156) and reset (spec/70_reset_and_hazards.md R220, R221). -/

namespace Sys2Proof.Machine

/-! ### The grid memory as a list in canonical form -/

/-- The canonical form: addresses strictly rising and inside the grid memory, and no entry equal to what an
unlisted address reads as. Equal memories are then equal lists. -/
abbrev Memory.wf (m : Memory) : Prop :=
  m.Pairwise (fun c d => c.1 < d.1) ∧ ∀ c ∈ m, c.1 < Config.gridBytes ∧ c.2 ≠ Config.unlistedByte

/-- The byte at an address (R65). -/
def Memory.read : Memory → Nat → Byte
  | [], _ => Config.unlistedByte
  | (k, w) :: rest, a => if k = a then w else Memory.read rest a

/-- An entry put before a list, or left out where it says what an unlisted address reads as. -/
def Memory.consCell (a : Nat) (v : Byte) (m : Memory) : Memory :=
  if v = Config.unlistedByte then m else (a, v) :: m

/-- The memory with the byte at one address replaced (R67); it keeps the canonical form. -/
def Memory.write : Memory → Nat → Byte → Memory
  | [], a, v => Memory.consCell a v []
  | (k, w) :: rest, a, v =>
    if a < k then Memory.consCell a v ((k, w) :: rest)
    else if a = k then Memory.consCell a v rest
    else (k, w) :: Memory.write rest a v

/-- The byte the grid memory holds at `a` (R65). -/
def byteAt (s : State) (a : Word) : Byte := Memory.read s.mem a.toNat

/-- The state with the byte `v` stored at `a`, every other byte kept (R67). -/
def storeByte (a : Word) (v : Byte) (s : State) : State := { s with mem := Memory.write s.mem a.toNat v }

/-- `MemOK(addr, kind)` (R68): the access falls in none of the refused ranges. -/
def memOK (p : Platform) (a : Word) (kind : AccessKind) : Bool :=
  !p.refused.any fun r => r.kind == kind && decide (r.first ≤ a) && decide (a ≤ r.last)

/-- `MemRead(addr, 1)` (R66): the byte, or the address for `MEMFAIL`. -/
def memRead (s : State) (a : Word) : Except Word Byte :=
  if memOK s.platform a .read then .ok (byteAt s a) else .error a

/-- `MemWrite(addr, 1, v)` (R67): the state with the byte stored, or the address for `MEMFAIL`. -/
def memWrite (s : State) (a : Word) (v : Byte) : Except Word State :=
  if memOK s.platform a .write then .ok (storeByte a v s) else .error a

/-! ### Recording and clearing errors -/

/-- `raise Error(code)` (R192): the first error since ERR was clear gives the code; ERR becomes 1. Nothing else
changes. -/
def raiseError (code : ErrCode) (s : State) : State :=
  { s with errcode := if s.err then s.errcode else code.bits, err := true }

/-- `MEMFAIL(addr)` (R68, R196): FAULT_ADDR takes the refused address at every MEM_ERROR, then the error is
recorded. -/
def memFail (a : Word) (s : State) : State := raiseError .memError { s with faultAddr := a }

/-- A STATUS write (R27, R203): bit [1] clears DONE, bit [2] clears ERR and ERRCODE, in one step; BUSY and the
other bits are not changed. -/
def writeStatus (v : Word) (s : State) : State :=
  { s with
    done := s.done && !v.getLsbD 1
    err := s.err && !v.getLsbD 2
    errcode := if v.getLsbD 2 then 0 else s.errcode }

/-! ### The state changes of a sweep -/

/-- What an accepted RESAMPLE writes: DONE <- 0, BUSY <- 1, cursor <- (0, 0) (R153). -/
def startSweep (s : State) : State := { s with done := false, busy := true, curRow := 0, curCol := 0 }

/-- The finish step's writes: BUSY <- 0, DONE <- 1; the cursor stays (R154). -/
def finishSweep (s : State) : State := { s with busy := false, done := true }

/-- The end of a sweep by a memory error at `a`: `MEMFAIL(a)`, then BUSY <- 0; DONE and the cursor stay
(R156). -/
def abortSweep (a : Word) (s : State) : State := { memFail a s with busy := false }

/-- The cursor moves one cell on in row-major order (R155). -/
def advanceCursor (s : State) : State :=
  if s.curCol.toNat + 1 = (dstCols s).toNat then { s with curRow := s.curRow + 1, curCol := 0 }
  else { s with curCol := s.curCol + 1 }

/-! ### Reset -/

/-- The reset step (R220 to R222): every piece of FXBIL state takes its reset value; the grid memory and the
platform are not touched. The entries of `inbox` still to come stay, and the host has no answer pending. -/
def resetBlock (s : State) : State :=
  { State.reset with mem := s.mem, platform := s.platform, inbox := s.inbox }

end Sys2Proof.Machine
end

