-- ==== Sys2Proof/Machine/Arith.lean ====
section
/-! DEFINITION. The meanings of NOP, MUL and TOFIX (spec/40_arith.md R120 to R122). A command runs only from a CMD
write while BUSY = 0; that check stands in Machine/Port.lean (spec/10_state.md R28, R40). -/

namespace Sys2Proof.Machine

/-- NOP (R120): `skip`. -/
def execNop (s : State) : Host.Outcome State Fault Refusal := .next s

/-- MUL (R121): `x[RES] <- fxmul(x[OPA], x[OPB])`. -/
def execMul (s : State) : Host.Outcome State Fault Refusal := .next { s with res := fxmul s.opa s.opb }

/-- TOFIX (R122): `x[RES] <- tofix(x[OPA])`. -/
def execTofix (s : State) : Host.Outcome State Fault Refusal := .next { s with res := tofix s.opa }

end Sys2Proof.Machine
end

