-- ==== Sys2Proof/Machine/Resampler.lean ====
section
/-! DEFINITION. The pipeline stages of one pixel (spec/41_resampler.md R140 to R148) and the meanings of LERP,
PIXEL and RESAMPLE (R151 to R153). -/

namespace Sys2Proof.Machine

/-! ### The stages -/

/-- `col_limit` of `limits()` (R140). -/
def colLimit (s : State) : Word := tofixHalf (srcCols s) - fixedOne

/-- `row_limit` of `limits()` (R140). -/
def rowLimit (s : State) : Word := tofixHalf (srcRows s) - fixedOne

/-- `tx` of `project(row, col)` (R141). -/
def projectX (s : State) (col : Half) : Word := fxmul (tofixHalf col) s.scaleX

/-- `ty` of `project(row, col)` (R141). -/
def projectY (s : State) (row : Half) : Word := fxmul (tofixHalf row) s.scaleY

/-- `i` of `split(t)`: the base neighbor in fixed-point units (R142). -/
def splitBase (t : Word) : Word := t &&& upperMask

/-- `iN` of `split(t)`: the next neighbor, from the unclamped base, mod 2^32 (R142). -/
def splitNext (t : Word) : Word := splitBase t + fixedOne

/-- `fact` of `split(t)`: the weight (R142). -/
def splitFact (t : Word) : Word := t &&& lowerMask

/-- `clamp(v, lim)`: strict and unsigned (R143). -/
def clamp (v lim : Word) : Word := if v > lim then lim else v

/-- The integer index of a clamped coordinate: `>> 16` (R144). -/
def gridIndex (v : Word) : Half := v.extractLsb' 16 16

/-- Four values in the order A, B, C, D (R144). -/
structure Quad (α : Type) where
  a : α
  b : α
  c : α
  d : α
deriving DecidableEq, Repr

/-- The four clamped coordinates iX', iXN', iY', iYN' and the two weights of one pixel (R142, R143). -/
structure Coords where
  iX : Word
  iXN : Word
  iY : Word
  iYN : Word
  factX : Word
  factY : Word
deriving DecidableEq, Repr

/-- The stages `limits`, `project`, `split` and `clamp` for one destination cell (R148, its first five lines).
Each coordinate is clamped against its own value (R143). -/
def pixelCoords (s : State) (row col : Half) : Coords :=
  let tx := projectX s col
  let ty := projectY s row
  { iX := clamp (splitBase tx) (colLimit s)
    iXN := clamp (splitNext tx) (colLimit s)
    iY := clamp (splitBase ty) (rowLimit s)
    iYN := clamp (splitNext ty) (rowLimit s)
    factX := splitFact tx
    factY := splitFact ty }

/-- The addresses of A (iY, iX), B (iY, iXN), C (iYN, iX) and D (iYN, iXN) (R144). -/
def gatherAddrs (s : State) (k : Coords) : Quad Word :=
  { a := srcAddr s (gridIndex k.iY) (gridIndex k.iX)
    b := srcAddr s (gridIndex k.iY) (gridIndex k.iXN)
    c := srcAddr s (gridIndex k.iYN) (gridIndex k.iX)
    d := srcAddr s (gridIndex k.iYN) (gridIndex k.iXN) }

/-- `gather` (R144): four reads in the order A, B, C, D, all made even where addresses are equal; it stops at the
first refused one. -/
def gather (s : State) (k : Coords) : Except Word (Quad Byte) :=
  let q := gatherAddrs s k
  match memRead s q.a with
  | .error e => .error e
  | .ok a =>
    match memRead s q.b with
    | .error e => .error e
    | .ok b =>
      match memRead s q.c with
      | .error e => .error e
      | .ok c =>
        match memRead s q.d with
        | .error e => .error e
        | .ok d => .ok { a := a, b := b, c := c, d := d }

/-- `top` of `hblend` (R145). -/
def hblendTop (factX : Word) (q : Quad Byte) : Word := blend factX (tofixByte q.a) (tofixByte q.b)

/-- `bottom` of `hblend` (R145). -/
def hblendBottom (factX : Word) (q : Quad Byte) : Word := blend factX (tofixByte q.c) (tofixByte q.d)

/-- `vblend(fact_y, top, bottom)` (R146). -/
def vblend (factY top bottom : Word) : Word := blend factY top bottom

/-- `extract(result)`: `(result >> 16) & 0xFF`, a wrap and no saturation (R147). -/
def extract (result : Word) : Byte := ((result >>> 16) &&& 0xFF).setWidth 8

/-- The blended FixedPoint `result` of four samples: horizontally, then vertically (R145, R146). -/
def blendQuad (factX factY : Word) (q : Quad Byte) : Word :=
  vblend factY (hblendTop factX q) (hblendBottom factX q)

/-- `pixel(row, col)` (R148): the Sample, or the address at which `gather` ended by MEMFAIL. -/
def pixel (s : State) (row col : Half) : Except Word Byte :=
  let k := pixelCoords s row col
  match gather s k with
  | .error e => .error e
  | .ok q => .ok (extract (blendQuad k.factX k.factY q))

/-! ### The commands -/

/-- LERP (R151): `x[RES] <- fxmul(ONE - f, x[OPA]) + fxmul(f, x[OPB]) mod 2^32`. -/
def execLerp (s : State) : Host.Outcome State Fault Refusal :=
  .next { s with res := blend (lerpWeight s) s.opa s.opb }

/-- PIXEL (R152): DOMAIN without a memory access, or MEM_ERROR at the first refused read with RES unchanged, or
RES <- the zero-extended sample. -/
def execPixel (s : State) : Host.Outcome State Fault Refusal :=
  if sourceOutOfDomain s || coordsOutOfDomain s then .next (raiseError .domain s)
  else
    match pixel s (pixelRow s) (pixelCol s) with
    | .error a => .next (memFail a s)
    | .ok v => .next { s with res := v.setWidth 32 }

/-- RESAMPLE (R153): DOMAIN, or the sweep starts; no memory access in the CMD write. -/
def execResample (s : State) : Host.Outcome State Fault Refusal :=
  if sourceOutOfDomain s then .next (raiseError .domain s) else .next (startSweep s)

end Sys2Proof.Machine
end

