-- ==== Sys2Proof/Machine/Dispatch.lean ====
section
/-! DEFINITION. Which meaning each command has (spec/30_encoding.md R92). -/

namespace Sys2Proof.Machine

def exec (i : Instr) (s : State) : Host.Outcome State Fault Refusal :=
  match i with
  | .nop => Sys2Proof.Machine.execNop s
  | .mul => Sys2Proof.Machine.execMul s
  | .tofix => Sys2Proof.Machine.execTofix s
  | .lerp => Sys2Proof.Machine.execLerp s
  | .pixel => Sys2Proof.Machine.execPixel s
  | .resample => Sys2Proof.Machine.execResample s

end Sys2Proof.Machine
end

