-- ==== Sys2Proof/Machine/Engine.lean ====
section
/-! DEFINITION. The engine's steps (spec/41_resampler.md R154 to R157). -/

namespace Sys2Proof.Machine

/-- The finish step is enabled (R154). -/
def finishEnabled (s : State) : Bool :=
  s.busy && (s.curRow == dstRows s || dstCols s == 0)

/-- The pixel step is enabled (R155). -/
def pixelEnabled (s : State) : Bool :=
  s.busy && decide (s.curRow < dstRows s) && decide (dstCols s > 0)

/-- The pixel step (R155): one atomic step of five accesses, in the order A, B, C, D, write. A MEMFAIL at any of
them ends the sweep (R156). -/
def pixelStep (s : State) : State :=
  match pixel s s.curRow s.curCol with
  | .error a => abortSweep a s
  | .ok v =>
    match memWrite s (dstAddr s s.curRow s.curCol) v with
    | .error a => abortSweep a s
    | .ok t => advanceCursor t

/-- The engine's turn: its enabled step, or nothing where none is enabled (R45, R211; log entries 6 and 17). -/
def engineTurn (s : State) : State :=
  if finishEnabled s then finishSweep s
  else if pixelEnabled s then pixelStep s
  else s

end Sys2Proof.Machine
end

