-- ==== Sys2Proof/Machine/RegMap.lean ====
section
/-! DEFINITION. The register map (spec/10_state.md R21): offsets, what is locked while BUSY, and what a read
returns. -/

namespace Sys2Proof.Machine

/-- The registers in the order of R21. -/
def allRegs : List Reg :=
  [.ctrl, .status, .cmd, .opa, .opb, .opc, .res, .scaleX, .scaleY, .srcBase, .srcDim, .dstBase, .dstDim, .faultAddr]

/-- The offset of a register from REG_BASE (R21). -/
def regOffset : Reg → Nat
  | .ctrl => 0x00
  | .status => 0x04
  | .cmd => 0x08
  | .opa => 0x0C
  | .opb => 0x10
  | .opc => 0x14
  | .res => 0x18
  | .scaleX => 0x1C
  | .scaleY => 0x20
  | .srcBase => 0x24
  | .srcDim => 0x28
  | .dstBase => 0x2C
  | .dstDim => 0x30
  | .faultAddr => 0x34

/-- The register at an offset of the window; the two reserved offsets 0x38 and 0x3C have none (R21, R63). -/
def regAtOffset (off : Nat) : Option Reg :=
  match off with
  | 0x00 => some .ctrl
  | 0x04 => some .status
  | 0x08 => some .cmd
  | 0x0C => some .opa
  | 0x10 => some .opb
  | 0x14 => some .opc
  | 0x18 => some .res
  | 0x1C => some .scaleX
  | 0x20 => some .scaleY
  | 0x24 => some .srcBase
  | 0x28 => some .srcDim
  | 0x2C => some .dstBase
  | 0x30 => some .dstDim
  | 0x34 => some .faultAddr
  | _ => none

/-- Registers whose write is rejected while BUSY = 1 (R21, R40). -/
def regLocked : Reg → Bool
  | .ctrl => false
  | .status => false
  | .cmd => true
  | .opa => false
  | .opb => false
  | .opc => false
  | .res => false
  | .scaleX => true
  | .scaleY => true
  | .srcBase => true
  | .srcDim => true
  | .dstBase => true
  | .dstDim => true
  | .faultAddr => false

/-- What a read of a register returns; it has no side effect (R41). CMD has no storage and reads 0 (R28). -/
def readReg (s : State) : Reg → Word
  | .ctrl => ctrlWord s
  | .status => statusWord s
  | .cmd => 0
  | .opa => s.opa
  | .opb => s.opb
  | .opc => s.opc
  | .res => s.res
  | .scaleX => s.scaleX
  | .scaleY => s.scaleY
  | .srcBase => s.srcBase
  | .srcDim => s.srcDim
  | .dstBase => s.dstBase
  | .dstDim => s.dstDim
  | .faultAddr => s.faultAddr

/-- What a read at an offset returns: the register there, or 0 at a reserved offset (R41, R63). -/
def readOffset (s : State) (off : Nat) : Word :=
  match regAtOffset off with
  | some r => readReg s r
  | none => 0

end Sys2Proof.Machine
end

