-- ==== Sys2Proof/Machine/Port.lean ====
section
/-! DEFINITION. The register port (spec/20_memory.md R61 to R64, spec/10_state.md R22 to R41), the issue of a
command (R28, spec/30_encoding.md R91, R93), and the one atomic step each entry of `inbox` stands for
(spec/60_exceptions.md R200, R201; spec/70_reset_and_hazards.md R229). -/

namespace Sys2Proof.Machine

/-- One command issue while BUSY = 0 (R28): the word is decoded and executed, or raises ILLEGAL_CMD and does
nothing else (R93, R193). -/
def issueCommand (v : Word) (s : State) : Host.Outcome State Fault Refusal :=
  match decode v with
  | .cmd i => exec i s
  | .illegal _ => .next (raiseError .illegalCmd s)

/-- A 32-bit write that the port took, to a register that is not locked now: each register's own rule (R22, R27
to R38). RES and FAULT_ADDR ignore it with no error (R21). -/
def writeRegFree (r : Reg) (v : Word) (s : State) : Host.Outcome State Fault Refusal :=
  match r with
  | .ctrl => .next { s with irqEn := v.getLsbD 0 }
  | .status => .next (writeStatus v s)
  | .cmd => issueCommand v s
  | .opa => .next { s with opa := v }
  | .opb => .next { s with opb := v }
  | .opc => .next { s with opc := v }
  | .res => .next s
  | .scaleX => .next { s with scaleX := v }
  | .scaleY => .next { s with scaleY := v }
  | .srcBase => .next { s with srcBase := v }
  | .srcDim => .next { s with srcDim := v }
  | .dstBase => .next { s with dstBase := v }
  | .dstDim => .next { s with dstDim := v }
  | .faultAddr => .next s

/-- A write to a register: while BUSY = 1 a locked one keeps its value and BUSY_WRITE is raised, before any
decode of a command (R40, R194, R200). -/
def writeReg (r : Reg) (v : Word) (s : State) : Host.Outcome State Fault Refusal :=
  if s.busy && regLocked r then .next (raiseError .busyWrite s) else writeRegFree r v s

/-- A write at an offset: the register there, or nothing at a reserved offset (R63). -/
def writeOffset (off : Nat) (v : Word) (s : State) : Host.Outcome State Fault Refusal :=
  match regAtOffset off with
  | some r => writeReg r v s
  | none => .next s

/-- The bus address of an access. -/
def PortAccess.addr : PortAccess → Nat
  | .read a _ => a
  | .write a _ _ => a

/-- The width of an access. -/
def PortAccess.width : PortAccess → Width
  | .read _ w => w
  | .write _ w _ => w

/-- The window decodes this bus address: `REG_BASE <= a < REG_BASE + 64` (R61). -/
def inWindow (s : State) (a : Nat) : Bool :=
  decide (s.platform.regBase ≤ a) && decide (a < s.platform.regBase + Config.windowBytes)

/-- The offset `a - REG_BASE` of an address in the window (R61). -/
def windowOffset (s : State) (a : Nat) : Nat := a - s.platform.regBase

/-- The port takes an access only if it is 32 bits wide and its offset a multiple of 4 (R62). -/
def portTakes (s : State) (acc : PortAccess) : Bool :=
  acc.width == .w32 && windowOffset s acc.addr % 4 == 0

/-- One host access (R61, R62): outside the window FXBIL does not see it; not an aligned 32-bit access gets
BusError and no effect; a read returns the value and has no side effect (R41); a write takes effect. -/
def portAccess (acc : PortAccess) (s : State) : Host.Outcome State Fault Refusal :=
  if !inWindow s acc.addr then .next { s with response := .none }
  else if !portTakes s acc then .next { s with response := .busError }
  else
    match acc with
    | .read a _ => .next { s with response := .data (readOffset s (windowOffset s a)) }
    | .write a _ v => writeOffset (windowOffset s a) v { s with response := .taken }

/-- One poll of WAITIDLE (R98): a STATUS read. If bit [0] of the value read is 1, the engine takes its turn and
the host polls again (DESIGN CHOICE, log entry 7); if it is 0, WAITIDLE is over. -/
def pollIdle (s : State) : State :=
  let v := statusWord s
  let t := { s with response := .data v }
  if v.getLsbD 0 then { t with inbox := .engine :: .waitIdle :: t.inbox } else t

/-- The host's read of a grid byte on its own path (R225 step 8), refused by name where it breaks R85. MemOK is
the memory port's and does not apply (log entry 8). -/
def hostGridRead (a : Word) (s : State) : Host.Outcome State Fault Refusal :=
  if s.busy && inDest s a then .refused .hostBreaksGridDuty
  else .next { s with response := .gridByte (byteAt s a) }

/-- The host's write of a grid byte on its own path (R65, R225 step 1), refused by name where it breaks R85. -/
def hostGridWrite (a : Word) (v : Byte) (s : State) : Host.Outcome State Fault Refusal :=
  if s.busy && (inSource s a || inDest s a) then .refused .hostBreaksGridDuty
  else .next { storeByte a v s with response := .taken }

/-- The atomic step that an entry of `inbox` stands for, on the state whose `inbox` no longer holds it
(R201, R229). -/
def takeEvent (e : Event) (s : State) : Host.Outcome State Fault Refusal :=
  match e with
  | .port acc => portAccess acc s
  | .waitIdle => .next (pollIdle s)
  | .engine => .next (engineTurn s)
  | .reset => .next (resetBlock s)
  | .gridRead a => hostGridRead a s
  | .gridWrite a v => hostGridWrite a v s

/-- The next atomic step: the first entry of `inbox`, or the engine's turn where there is none (R229, R233). With
BUSY = 0 and nothing to come, all state is held (R211). -/
def nextStep (s : State) : Host.Outcome State Fault Refusal :=
  match s.inbox with
  | [] => .next (engineTurn s)
  | e :: rest => takeEvent e { s with inbox := rest }

/-- The entry that stands for writing `v` to register `r` with an aligned 32-bit access (R97). -/
def writeEvent (s : State) (r : Reg) (v : Word) : Event :=
  .port (.write (s.platform.regBase + regOffset r) .w32 v)

/-- The entry that stands for reading register `r` with an aligned 32-bit access (R97). -/
def readEvent (s : State) (r : Reg) : Event := .port (.read (s.platform.regBase + regOffset r) .w32)

/-- `s` with `e` as the next atomic step. -/
def State.before (e : Event) (s : State) : State := { s with inbox := e :: s.inbox }

end Sys2Proof.Machine
end

