-- ==== Sys2Proof/Machine/Step.lean ====
section
/-! DEFINITION. One step of the machine: one atomic step of spec/70_reset_and_hazards.md R229; and how the host
of this pipeline has a command run as the next step. -/

namespace Sys2Proof.Machine

/-- One atomic step (R201, R229). -/
def step (s : State) : Host.Outcome State Fault Refusal := nextStep s

/-- `s` with the command word whose low `nbits` bits are those of `w` as the very next command (log entry 14):
FXBIL fetches nothing (R43, R82), a command comes by a CMD write (R28), so that write is put first in `inbox`;
and a CMD write issues a command only while BUSY = 0 (R40), so BUSY is 0. -/
def State.withFetchWord (s : State) (nbits w : Nat) : State :=
  { s with
    busy := false
    inbox := writeEvent s .cmd (BitVec.ofNat 32 (w % 2 ^ nbits)) :: s.inbox }

end Sys2Proof.Machine
end

