-- ==== Sys2Proof/Machine/HostProgram.lean ====
section
/-! DEFINITION. A host program (spec/30_encoding.md R97, R98): what each line expands to, and the end of its run
(spec/70_reset_and_hazards.md R234). -/

namespace Sys2Proof.Machine

/-- The 32-bit write of `v` to register `r` with the window at bus address `base` (R97). -/
def lineWrite (base : Nat) (r : Reg) (v : Word) : Event := .port (.write (base + regOffset r) .w32 v)

/-- The 32-bit read of register `r` (R97). -/
def lineRead (base : Nat) (r : Reg) : Event := .port (.read (base + regOffset r) .w32)

/-- `(<rows> << 16) | <cols>` (R98). -/
def dimWord (rows cols : Nat) : Word := (BitVec.ofNat 32 rows <<< 16) ||| BitVec.ofNat 32 cols

/-- What a line stands for: its bus transactions (R97) or its expansion (R98). WAITIDLE's number of reads depends
on the run, so it stays one entry, which polls (`pollIdle`). -/
def lineEvents (base : Nat) : HostLine → List Event
  | .writeReg r v => [lineWrite base r v]
  | .readReg r => [lineRead base r]
  | .command i => [lineWrite base .cmd (encode i)]
  | .waitIdle => [.waitIdle]
  | .clrStatus => [lineWrite base .status 0x00000006]
  | .setSrc b rows cols => [lineWrite base .srcBase b, lineWrite base .srcDim (dimWord rows cols)]
  | .setDst b rows cols => [lineWrite base .dstBase b, lineWrite base .dstDim (dimWord rows cols)]
  | .setScale sy sx => [lineWrite base .scaleY sy, lineWrite base .scaleX sx]

/-- A program's entries, line by line (R97). -/
def programEvents (base : Nat) (p : List HostLine) : List Event := p.flatMap (lineEvents base)

/-- The launch of a host program on a state (R234): its entries come after those already waiting. -/
def State.launch (p : List HostLine) (s : State) : State :=
  { s with inbox := s.inbox ++ programEvents s.platform.regBase p }

/-- The entries of `inbox` that are accesses of the host; the engine's turns and the reset input are not the host's
(R229). DEDUCED, log entry 26. -/
def Event.isHostAccess : Event → Bool
  | .port _ => true
  | .waitIdle => true
  | .engine => false
  | .reset => false
  | .gridRead _ => true
  | .gridWrite _ _ => true

/-- A run has ended (R234): the host has made its last access, and BUSY = 0. -/
def runEnded (s : State) : Bool := !s.busy && !s.inbox.any Event.isHostAccess

/-- The observation at the end of a run (R234): the register values of R21 and the grid memory. -/
def observation (s : State) : List Word × Memory := (allRegs.map (readReg s), s.mem)

end Sys2Proof.Machine
end

