-- ==== Sys2Proof/Machine/HostRef.lean ====
section
/-! DEFINITION. The host's reference functions (spec/40_arith.md R110, R118, R119; spec/70_reset_and_hazards.md
R226), on exact rationals. The block does not implement them (R6, R118, R119). -/

namespace Sys2Proof.Machine

/-- `val(v)`, the real number a FixedPoint denotes (R110); it is also `to_float(v)` (R119). -/
def fixedVal (v : Word) : ℚ := (v.toNat : ℚ) / 65536

/-- `to_float(v)` of R119: the whole part plus the fraction over 65536. -/
def hostToFloat (v : Word) : ℚ := ((v >>> 16).toNat : ℚ) + ((v &&& 0xFFFF).toNat : ℚ) / 65536

/-- Rounding a nonnegative value with halves away from zero (R118, D25). -/
def roundHalfAway (q : ℚ) : Int := (q + 1 / 2).floor

/-- `to_fixed(value)` of R118, for `0 <= value < 65536`. Outside that domain the spec gives no value, and the result is
a free value (DESIGN CHOICE, log entry 27). -/
def hostToFixed (value : ℚ) : Word :=
  if 0 ≤ value ∧ value < 65536 then
    let w := value.floor
    let f := roundHalfAway ((value - w) * 65536)
    BitVec.ofInt 32 (w * 65536 + f)
  else Config.freeToFixed value

/-- A scale factor: `to_fixed(source_extent / destination_extent)` (R226). For an empty destination extent, which DST_DIM
may hold (R36), that ratio does not exist and the spec gives no scale: the result is a free value (DESIGN CHOICE, log
entry 27). -/
def hostScale (sourceExtent destExtent : Nat) : Word :=
  if destExtent = 0 then Config.freeScale sourceExtent
  else hostToFixed ((sourceExtent : ℚ) / (destExtent : ℚ))

end Sys2Proof.Machine
end

