-- ==== Sys2Proof/Safety.lean ====
section
/-! DEFINITION. The terms claims about FXBIL are stated in: the invariant of the machine, and what a run of a sweep is
measured against. -/

namespace Sys2Proof.Machine

/-! ### The invariant -/

/-- ERRCODE = 0 exactly when ERR = 0 (R26), and codes 5 to 15 are never produced (R191). -/
abbrev ErrWf (s : State) : Prop := (s.errcode = 0 ↔ s.err = false) ∧ s.errcode.toNat ≤ 4

/-- The cursor's bounds during a sweep (R37): `CUR_ROW <= DST_ROWS`, and `CUR_COL < DST_COLS` whenever
`CUR_ROW < DST_ROWS` and the destination has columns (R37 leaves out that last condition, which an accepted
RESAMPLE with DST_COLS = 0 needs: log entry 9); at the end the column is 0 (R155). -/
abbrev CursorWf (s : State) : Prop :=
  s.curRow ≤ dstRows s ∧
  (s.curRow < dstRows s → dstCols s ≠ 0 → s.curCol < dstCols s) ∧
  (s.curRow = dstRows s → s.curCol = 0)

/-- What holds while BUSY = 1: DONE = 0 (R24, R153, R154), the source and the scales are in the domain (R45), and
the cursor is in bounds (R37). -/
abbrev SweepWf (s : State) : Prop := s.done = false ∧ sourceOutOfDomain s = false ∧ CursorWf s

/-- The machine's invariant. -/
abbrev State.Inv (s : State) : Prop :=
  Memory.wf s.mem ∧ s.platform.wf = true ∧ ErrWf s ∧ (s.busy = true → SweepWf s)

/-! ### Steps -/

/-- The next atomic step is the reset input's (R229 item 3). -/
abbrev nextIsReset (s : State) : Prop := s.inbox.head? = some .reset

/-- The next atomic step is an engine's turn: an explicit one, or the one the machine takes when `inbox` is empty
(R229 item 2). -/
abbrev nextIsEngine (s : State) : Prop := s.inbox.head? = none ∨ s.inbox.head? = some .engine

/-- The next atomic step is a 32-bit aligned write of `v` to register `r` (R62). -/
abbrev nextIsWrite (s : State) (r : Reg) (v : Word) : Prop := s.inbox.head? = some (writeEvent s r v)

/-- The next atomic step is a write to register `r` that takes effect: the register is not locked, or BUSY = 0
(R40). -/
abbrev nextIsFreeWrite (s : State) (r : Reg) (v : Word) : Prop :=
  nextIsWrite s r v ∧ ¬(s.busy = true ∧ regLocked r = true)

/-- The next atomic step executes the command `i`: a CMD write of its word while BUSY = 0 (R28). -/
abbrev nextIsCommand (s : State) (i : Instr) : Prop := nextIsWrite s .cmd (encode i) ∧ s.busy = false

/-- The state in which the next atomic step's event acts: `inbox` without its first entry. -/
def popped (s : State) : State := { s with inbox := s.inbox.tail }

/-- The state in which a host write that the port takes acts. -/
def written (s : State) : State := { s with response := .taken }

/-! ### Sweeps -/

/-- No address is in both regions (R84). -/
def regionsDisjoint (s : State) : Prop := ∀ a : Word, ¬(inSource s a = true ∧ inDest s a = true)

/-- MemOK holds at every address a sweep touches: reads of the source region and writes of the destination
region (R68). -/
def sweepAdmitted (s : State) : Prop :=
  ∀ a : Word, (inSource s a = true → memOK s.platform a .read = true) ∧
    (inDest s a = true → memOK s.platform a .write = true)

/-- The destination grid has the cell (r, c). -/
abbrev isDestCell (s : State) (r c : Half) : Prop := r < dstRows s ∧ c < dstCols s

/-- Cell (r, c) comes before (r', c') in row-major order (R157). -/
abbrev cellBefore (r c r' c' : Half) : Prop := r < r' ∨ (r = r' ∧ c < c')

/-- The number of cells a sweep has done when its cursor stands where it stands (R157). -/
def cellsDone (s : State) : Nat := s.curRow.toNat * (dstCols s).toNat + s.curCol.toNat

/-- The number of cells of the destination grid: `DST_ROWS * DST_COLS` (R157). -/
def destCells (s : State) : Nat := (dstRows s).toNat * (dstCols s).toNat

/-- The registers and the platform that a sweep's result depends on are the same in both states (R40). -/
def sameConfig (s t : State) : Prop :=
  t.scaleX = s.scaleX ∧ t.scaleY = s.scaleY ∧ t.srcBase = s.srcBase ∧ t.srcDim = s.srcDim ∧
  t.dstBase = s.dstBase ∧ t.dstDim = s.dstDim ∧ t.platform = s.platform

/-- The source region holds in `t` what it held in `s`. -/
def sameSource (s t : State) : Prop := ∀ a : Word, inSource s a = true → byteAt t a = byteAt s a

/-- In `t`, the destination cells before the cell (r', c') hold the samples of the launch state `s`, and the others
what they held in `s` (R156, R157). -/
def cellsWritten (s t : State) (r' c' : Half) : Prop :=
  ∀ r c : Half, isDestCell s r c →
    (cellBefore r c r' c' → pixel s r c = .ok (byteAt t (dstAddr s r c))) ∧
    (¬cellBefore r c r' c' → byteAt t (dstAddr s r c) = byteAt s (dstAddr s r c))

/-- `t` is a state of a sweep that was launched in `s` and has come as far as the cursor says. -/
def sweepUnderWay (s t : State) : Prop :=
  t.busy = true ∧ t.Inv ∧ sameConfig s t ∧ sameSource s t ∧ cellsWritten s t t.curRow t.curCol

/-- `t` is a state in which the sweep launched in `s` has ended by its finish step (R154, R159). -/
def sweepFinished (s t : State) : Prop :=
  t.busy = false ∧ t.done = true ∧ sameConfig s t ∧ sameSource s t ∧
  ∀ r c : Half, isDestCell s r c → pixel s r c = .ok (byteAt t (dstAddr s r c))

/-- `t` is a state in which the sweep launched in `s` has ended by a memory error, precise at cell granularity
(R156, R202). -/
def sweepCut (s t : State) : Prop :=
  t.busy = false ∧ t.done = false ∧ t.err = true ∧ sameConfig s t ∧ sameSource s t ∧
  cellsWritten s t t.curRow t.curCol ∧
  (memOK s.platform t.faultAddr .read = false ∨ memOK s.platform t.faultAddr .write = false)

end Sys2Proof.Machine
end

