-- ==== Sys2Proof/Certificates/Slice0/Obligations.lean ====
section
/-! DEFINITION. The statements for the provers, each about every state, from the numbered rules of spec/. A value
or behaviour that is the model's own choice is named with its log entry in the statement's docstring. -/

open Sys2Proof Sys2Proof.Machine

/-! ### The command word -/

/-- R92, R93: the six command words, and illegal words of both kinds next to them. -/
def Obligations.OpcodeMapRowsAndTheirNeighbours : Prop :=
  (decode 0x00000000 = .cmd .nop ∧ decode 0x00000001 = .cmd .mul ∧ decode 0x00000002 = .cmd .tofix ∧
    decode 0x00000003 = .cmd .lerp ∧ decode 0x00000004 = .cmd .pixel ∧ decode 0x00000005 = .cmd .resample) ∧
  (decode 0x00000006 = .illegal .unassignedOpcode ∧ decode 0x000000FF = .illegal .unassignedOpcode ∧
    decode 0x00000100 = .illegal .reservedFieldNonzero ∧ decode 0x80000005 = .illegal .reservedFieldNonzero)

/-- R91 to R94: a word decodes to a command exactly when it is that command's word; it is illegal for its RSVD
field exactly when bits [31:8] are not 0, and for its OPCODE exactly when they are 0 and bits [7:0] are 0x06 to
0xFF. So every word has one meaning and encoding drops nothing. -/
def Obligations.DecodeAcceptsExactlyTheEncodedWords : Prop :=
  (∀ i : Instr, i.wf = true → decode (encode i) = .cmd i) ∧
  (∀ (v : Word) (i : Instr), decode v = .cmd i → v = encode i) ∧
  (∀ v : Word, decode v = .illegal .reservedFieldNonzero ↔ v.toNat / 2 ^ 8 ≠ 0) ∧
  (∀ v : Word, decode v = .illegal .unassignedOpcode ↔ 0x06 ≤ v.toNat ∧ v.toNat ≤ 0xFF)

/-- R28: a CMD write of a word that decodes to a command, while BUSY = 0, is exactly that command, on the state in
which the write has left the inbox and been answered; and the same for the word the host of this pipeline places
(withFetchWord, log entry 14). -/
def Obligations.StepExecutesTheCommandWritten : Prop :=
  (∀ (s : State) (v : Word) (i : Instr), nextIsWrite s .cmd v → s.busy = false → decode v = .cmd i →
    step s = exec i (written (popped s))) ∧
  (∀ (s : State) (i : Instr), i.wf = true →
    step (s.withFetchWord 32 (encode i).toNat) = exec i { s with busy := false, response := .taken })

/-! ### The arithmetic commands -/

/-- R120: NOP has the word 0 and changes nothing; written while BUSY it raises BUSY_WRITE; a word with OPCODE 0x00
and a nonzero RSVD field raises ILLEGAL_CMD. -/
def Obligations.NopChangesNothing : Prop :=
  encode .nop = 0x00000000 ∧
  (∀ s : State, exec .nop s = .next s) ∧
  (∀ s : State, nextIsWrite s .cmd 0x00000000 → s.busy = true →
    step s = .next { written (popped s) with err := true, errcode := if s.err then s.errcode else 2 }) ∧
  (∀ (s : State) (v : Word), nextIsWrite s .cmd v → s.busy = false → v.toNat % 2 ^ 8 = 0 → v.toNat / 2 ^ 8 ≠ 0 →
    step s = .next { written (popped s) with err := true, errcode := if s.err then s.errcode else 1 })

/-- R121 with R113: MUL always completes; RES becomes bits [47:16] of the exact product and nothing else changes;
the corner cases of R121. -/
def Obligations.MulGivesTheScaleReducedProduct : Prop :=
  encode .mul = 0x00000001 ∧
  (∀ s : State, ∃ t, exec .mul s = .next t ∧ t = { s with res := t.res } ∧
    t.res.toNat = s.opa.toNat * s.opb.toNat / 2 ^ 16 % 2 ^ 32) ∧
  (∀ s : State, s.opa = 0 ∨ s.opb = 0 → exec .mul s = .next { s with res := 0 }) ∧
  (∀ s : State, s.opb = 0x00010000 → exec .mul s = .next { s with res := s.opa }) ∧
  (∀ s : State, s.opa = 0x00000001 → s.opb = 0x00000001 → exec .mul s = .next { s with res := 0 }) ∧
  (∀ s : State, s.opa = 0xFFFFFFFF → s.opb = 0xFFFFFFFF → exec .mul s = .next { s with res := 0xFFFE0000 }) ∧
  (∀ s : State, s.opa = 0x01000000 → s.opb = 0x01000000 → exec .mul s = .next { s with res := 0 }) ∧
  (∀ s : State, s.opa = 0x00018000 → s.opb = 0x00020000 → exec .mul s = .next { s with res := 0x00030000 })

/-- R114, laws 1 to 7, for all 32-bit operands; `fixedVal` is `val` of R110. -/
def Obligations.FxmulLaws : Prop :=
  (∀ a b : Word, fxmul a b = fxmul b a) ∧
  (∀ a : Word, fxmul a fixedOne = a) ∧
  (∀ a : Word, fxmul a 0 = 0) ∧
  (∀ n b : Word, n.toNat < 65536 → (fxmul (tofix n) b).toNat = n.toNat * b.toNat % 2 ^ 32) ∧
  (∀ a b : Word, fixedVal a * fixedVal b < 65536 →
    fixedVal (fxmul a b) = (⌊fixedVal a * fixedVal b * 65536⌋ : ℚ) / 65536 ∧
    0 ≤ fixedVal a * fixedVal b - fixedVal (fxmul a b) ∧
    fixedVal a * fixedVal b - fixedVal (fxmul a b) < 1 / 65536) ∧
  (∀ a b : Word, 65536 ≤ fixedVal a * fixedVal b →
    ∃ k : ℕ, fixedVal (fxmul a b) = (⌊fixedVal a * fixedVal b * 65536⌋ : ℚ) / 65536 - 65536 * k) ∧
  (fxmul (fxmul 0x00000001 0x00008000) 0x00020000 = 0 ∧
    fxmul 0x00000001 (fxmul 0x00008000 0x00020000) = 0x00000001)

/-- R122 with R115: TOFIX always completes; RES becomes `OPA * 2^16 mod 2^32`, so OPA[31:16] are lost, and nothing
else changes; the corner cases of R122. -/
def Obligations.TofixShiftsTheIntegerUp : Prop :=
  encode .tofix = 0x00000002 ∧
  (∀ s : State, ∃ t, exec .tofix s = .next t ∧ t = { s with res := t.res } ∧
    t.res.toNat = s.opa.toNat * 2 ^ 16 % 2 ^ 32) ∧
  (∀ s : State, s.opa = 0 → exec .tofix s = .next { s with res := 0 }) ∧
  (∀ s : State, s.opa = 65535 → exec .tofix s = .next { s with res := 0xFFFF0000 }) ∧
  (∀ s : State, s.opa = 65536 → exec .tofix s = .next { s with res := 0 }) ∧
  (∀ s : State, s.opa = 0x12345678 → exec .tofix s = .next { s with res := 0x56780000 }) ∧
  (∀ s : State, s.opa = 0x000000FF → exec .tofix s = .next { s with res := 0x00FF0000 })

/-- R151: LERP always completes; with f = OPC[15:0], RES becomes
`fxmul(ONE - f, OPA) + fxmul(f, OPB) mod 2^32` and nothing else changes; the corner cases of R151. -/
def Obligations.LerpBlendsTwoFixedPoints : Prop :=
  encode .lerp = 0x00000003 ∧
  (∀ s : State, ∃ t, exec .lerp s = .next t ∧ t = { s with res := t.res } ∧
    t.res.toNat = ((65536 - s.opc.toNat % 65536) * s.opa.toNat / 2 ^ 16 % 2 ^ 32 +
      s.opc.toNat % 65536 * s.opb.toNat / 2 ^ 16 % 2 ^ 32) % 2 ^ 32) ∧
  (∀ s : State, s.opc.toNat % 65536 = 0 → exec .lerp s = .next { s with res := s.opa }) ∧
  (∀ s : State, s.opc.toNat % 65536 = 0xFFFF →
    exec .lerp s = .next { s with res := fxmul 1 s.opa + fxmul 0xFFFF s.opb }) ∧
  (∀ (s : State) (w : Word), w.toNat % 65536 = s.opc.toNat % 65536 → ∀ t, exec .lerp s = .next t →
    exec .lerp { s with opc := w } = .next { t with opc := w }) ∧
  (∀ s : State, s.opa = 0xFFFFFFFF → s.opb = 0xFFFFFFFF → s.opc = 0x8000 →
    exec .lerp s = .next { s with res := 0xFFFFFFFE }) ∧
  (∀ s : State, s.opb = s.opa → ∀ t, exec .lerp s = .next t → t.res.toNat ≤ s.opa.toNat) ∧
  (∀ s : State, s.opa = 0 → s.opb = 0x00FF0000 → s.opc = 0x8000 →
    exec .lerp s = .next { s with res := 0x007F8000 })

/-- R110 to R112: what a FixedPoint denotes, ONE, and the two masks. R118, R119 and 90_conflicts.md C9 (host reference
functions, not part of the block): `to_float` is that value; the round trip is exact on the FixedPoints, within 2^-17
below `65536 - 2^-17`, and wraps to 0 from there on. -/
def Obligations.FixedPointsAndTheHostsConversions : Prop :=
  (∀ v : Word, fixedVal v = ((v >>> 16).toNat : ℚ) + ((v &&& lowerMask).toNat : ℚ) / 65536) ∧
  (∀ v : Word, 0 ≤ fixedVal v ∧ fixedVal v < 65536) ∧
  fixedVal fixedOne = 1 ∧
  (∀ v : Word, (v &&& upperMask).toNat = v.toNat / 65536 * 65536 ∧ (v &&& lowerMask).toNat = v.toNat % 65536) ∧
  (∀ v : Word, hostToFloat v = fixedVal v) ∧
  (∀ v : Word, hostToFixed (fixedVal v) = v) ∧
  (∀ q : ℚ, 0 ≤ q → q < 65536 - 1 / 131072 → |fixedVal (hostToFixed q) - q| ≤ 1 / 131072) ∧
  (∀ q : ℚ, 65536 - 1 / 131072 ≤ q → q < 65536 → hostToFixed q = 0)

/-! ### The pipeline of one pixel -/

/-- R140 to R144 on exact naturals: the limits of a nonempty source, the projections, the split and the clamp; and for
one destination cell the two weights and the addresses of A, B, C and D, whose indices are the whole part of the
projection and the next one mod 2^16, each at most the last index of its axis. -/
def Obligations.StagesOnExactNaturals : Prop :=
  (∀ s : State, srcCols s ≠ 0 → (colLimit s).toNat = ((srcCols s).toNat - 1) * 65536) ∧
  (∀ s : State, srcRows s ≠ 0 → (rowLimit s).toNat = ((srcRows s).toNat - 1) * 65536) ∧
  (∀ (s : State) (col : Half), (projectX s col).toNat = col.toNat * s.scaleX.toNat % 2 ^ 32) ∧
  (∀ (s : State) (row : Half), (projectY s row).toNat = row.toNat * s.scaleY.toNat % 2 ^ 32) ∧
  (∀ t : Word, (splitBase t).toNat = t.toNat / 65536 * 65536 ∧
    (splitNext t).toNat = (t.toNat / 65536 + 1) * 65536 % 2 ^ 32 ∧ (splitFact t).toNat = t.toNat % 65536) ∧
  (∀ v lim : Word, (clamp v lim).toNat = min v.toNat lim.toNat) ∧
  (∀ (s : State) (row col : Half), srcRows s ≠ 0 → srcCols s ≠ 0 →
    let tx := col.toNat * s.scaleX.toNat % 2 ^ 32
    let ty := row.toNat * s.scaleY.toNat % 2 ^ 32
    let rows := s.srcDim.toNat / 65536
    let cols := s.srcDim.toNat % 65536
    let c0 := min (tx / 65536) (cols - 1)
    let c1 := min ((tx / 65536 + 1) % 65536) (cols - 1)
    let r0 := min (ty / 65536) (rows - 1)
    let r1 := min ((ty / 65536 + 1) % 65536) (rows - 1)
    let k := pixelCoords s row col
    let q := gatherAddrs s k
    k.factX.toNat = tx % 65536 ∧ k.factY.toNat = ty % 65536 ∧
    q.a.toNat = (s.srcBase.toNat + r0 * cols + c0) % 2 ^ 32 ∧ q.b.toNat = (s.srcBase.toNat + r0 * cols + c1) % 2 ^ 32 ∧
    q.c.toNat = (s.srcBase.toNat + r1 * cols + c0) % 2 ^ 32 ∧ q.d.toNat = (s.srcBase.toNat + r1 * cols + c1) % 2 ^ 32)

/-- R69, R70: the address of a cell is the base plus `r * COLS + c`, mod 2^32, and only the addition of the base can
wrap. -/
def Obligations.CellAddressesWrapOnlyAtTheBase : Prop :=
  ∀ (s : State) (r c : Half),
    (srcAddr s r c).toNat = (s.srcBase.toNat + r.toNat * (s.srcDim.toNat % 65536) + c.toNat) % 2 ^ 32 ∧
    (dstAddr s r c).toNat = (s.dstBase.toNat + r.toNat * (s.dstDim.toNat % 65536) + c.toNat) % 2 ^ 32 ∧
    r.toNat * (s.srcDim.toNat % 65536) + c.toNat < 2 ^ 32 ∧
    r.toNat * (s.dstDim.toNat % 65536) + c.toNat < 2 ^ 32

/-- R69: two cells of the destination grid never share an address, and every cell lies in the destination region. -/
def Obligations.DestinationCellsHaveTheirOwnBytes : Prop :=
  ∀ (s : State) (r c r' c' : Half), isDestCell s r c → isDestCell s r' c' →
    inDest s (dstAddr s r c) = true ∧ (dstAddr s r c = dstAddr s r' c' → r = r' ∧ c = c')

/-- R144, R200: `gather` ends at the first refused address in the order A, B, C, D, and gives the four bytes when
none is refused. -/
def Obligations.GatherStopsAtTheFirstRefusedRead : Prop :=
  ∀ (s : State) (k : Coords),
    let q := gatherAddrs s k
    match [q.a, q.b, q.c, q.d].find? (fun a => !memOK s.platform a .read) with
    | some a => gather s k = .error a
    | none => gather s k =
        .ok { a := byteAt s q.a, b := byteAt s q.b, c := byteAt s q.c, d := byteAt s q.d }

/-- R149 law 4: every lookup of a pixel is inside a nonempty source, for any cell and any scale, wraps included. -/
def Obligations.LookupsStayInsideTheSource : Prop :=
  ∀ (s : State) (row col : Half), srcRows s ≠ 0 → srcCols s ≠ 0 →
    let k := pixelCoords s row col
    let q := gatherAddrs s k
    gridIndex k.iY < srcRows s ∧ gridIndex k.iYN < srcRows s ∧
    gridIndex k.iX < srcCols s ∧ gridIndex k.iXN < srcCols s ∧
    inSource s q.a = true ∧ inSource s q.b = true ∧ inSource s q.c = true ∧ inSource s q.d = true

/-- R149 laws 1, 2, 3, 5, for 8-bit samples and weights below ONE: the horizontal blend is exact, the result never
passes 0x00FF0000 so the extraction drops nothing, the sample lies between its neighbors, and zero weights give A. -/
def Obligations.BlendedSampleIsBoundedByItsNeighbours : Prop :=
  ∀ (fx fy : Word) (q : Quad Byte), fx.toNat ≤ 0xFFFF → fy.toNat ≤ 0xFFFF →
    (hblendTop fx q).toNat = (65536 - fx.toNat) * q.a.toNat + fx.toNat * q.b.toNat ∧
    (hblendBottom fx q).toNat = (65536 - fx.toNat) * q.c.toNat + fx.toNat * q.d.toNat ∧
    (blendQuad fx fy q).toNat ≤ 0x00FF0000 ∧
    (extract (blendQuad fx fy q)).toNat = (blendQuad fx fy q).toNat / 65536 ∧
    min (min q.a.toNat q.b.toNat) (min q.c.toNat q.d.toNat) ≤ (extract (blendQuad fx fy q)).toNat ∧
    (extract (blendQuad fx fy q)).toNat ≤ max (max q.a.toNat q.b.toNat) (max q.c.toNat q.d.toNat) ∧
    (fx = 0 → fy = 0 → extract (blendQuad fx fy q) = q.a)

/-- R149 law 7: the vertical blend is below the exact value by less than two units of 2^-16; and the witness whose
sample is one less than the exact value's floor. R146: the blend is horizontal first; its witness, where the other
order gives another sample. -/
def Obligations.VerticalBlendTruncatesByLessThanTwoUnits : Prop :=
  (∀ (fy top bottom : Word), fy.toNat ≤ 0xFFFF → top.toNat ≤ 0x00FF0000 → bottom.toNat ≤ 0x00FF0000 →
    (vblend fy top bottom).toNat * 65536 ≤ (65536 - fy.toNat) * top.toNat + fy.toNat * bottom.toNat ∧
    (65536 - fy.toNat) * top.toNat + fy.toNat * bottom.toNat < ((vblend fy top bottom).toNat + 2) * 65536) ∧
  (blendQuad 0x8100 0x1BBD { a := 196, b := 217, c := 31, d := 149 } = 0x00C1FFFF ∧
    extract 0x00C1FFFF = 193 ∧
    194 * 65536 * 65536 ≤ (65536 - 0x1BBD) * 0x00CE9500 + 0x1BBD * 0x005A7600) ∧
  (blendQuad 0xB699 0x5301 { a := 62, b := 178, c := 232, d := 167 } = 0x009E0000 ∧ extract 0x009E0000 = 158 ∧
    blend 0xB699 (blend 0x5301 (tofixByte 62) (tofixByte 232)) (blend 0x5301 (tofixByte 178) (tofixByte 167))
      = 0x009DFFFF ∧
    extract 0x009DFFFF = 157)

/-- R149 law 6: with both scales ONE and a nonempty source whose bytes may be read, a pixel is the source byte at the
clamped cell. -/
def Obligations.UnitScaleCopiesTheSource : Prop :=
  ∀ (s : State) (row col : Half), s.scaleX = fixedOne → s.scaleY = fixedOne →
    srcRows s ≠ 0 → srcCols s ≠ 0 → (∀ a, inSource s a = true → memOK s.platform a .read = true) →
    pixel s row col = .ok (byteAt s (srcAddr s
      (if row < srcRows s then row else srcRows s - 1) (if col < srcCols s then col else srcCols s - 1)))

/-! ### PIXEL and RESAMPLE -/

/-- R152: where the source is nonempty, both scales are nonzero, both coordinates are at most 0xFFFF and the four
reads are admitted, PIXEL completes: RES becomes the zero-extended sample of the four neighbors, and nothing else
changes, the grid memory included. R148: that sample is `pixel` at those coordinates, and on exact naturals it is the
four bytes blended by the fractions of `col * SCALE_X` and `row * SCALE_Y` mod 2^32, horizontally and then vertically
with the truncations of R113 and R147 (O10 gives their addresses on exact naturals). -/
def Obligations.PixelReturnsTheSample : Prop :=
  ∀ s : State, srcRows s ≠ 0 → srcCols s ≠ 0 → s.scaleX ≠ 0 → s.scaleY ≠ 0 →
    s.opa.toNat ≤ 0xFFFF → s.opb.toNat ≤ 0xFFFF →
    let k := pixelCoords s (s.opa.setWidth 16) (s.opb.setWidth 16)
    let q := gatherAddrs s k
    memOK s.platform q.a .read = true → memOK s.platform q.b .read = true →
    memOK s.platform q.c .read = true → memOK s.platform q.d .read = true →
    let sample := extract (blendQuad k.factX k.factY
      { a := byteAt s q.a, b := byteAt s q.b, c := byteAt s q.c, d := byteAt s q.d })
    let f := s.opb.toNat * s.scaleX.toNat % 2 ^ 32 % 65536
    let g := s.opa.toNat * s.scaleY.toNat % 2 ^ 32 % 65536
    let top := (65536 - f) * (byteAt s q.a).toNat + f * (byteAt s q.b).toNat
    let bottom := (65536 - f) * (byteAt s q.c).toNat + f * (byteAt s q.d).toNat
    exec .pixel s = .next { s with res := sample.setWidth 32 } ∧
    pixel s (s.opa.setWidth 16) (s.opb.setWidth 16) = .ok sample ∧
    sample.toNat = ((65536 - g) * top / 65536 + g * bottom / 65536) / 65536

/-- R152, R196: in the domain, PIXEL ends at the first refused read in the order A, B, C, D: FAULT_ADDR takes its
address whether or not ERR was set, MEM_ERROR is recorded, and RES and everything else keep their values. -/
def Obligations.PixelRecordsTheRefusedRead : Prop :=
  ∀ (s : State) (a : Word), srcRows s ≠ 0 → srcCols s ≠ 0 → s.scaleX ≠ 0 → s.scaleY ≠ 0 →
    s.opa.toNat ≤ 0xFFFF → s.opb.toNat ≤ 0xFFFF →
    let q := gatherAddrs s (pixelCoords s (s.opa.setWidth 16) (s.opb.setWidth 16))
    [q.a, q.b, q.c, q.d].find? (fun x => !memOK s.platform x .read) = some a →
    exec .pixel s = .next { s with faultAddr := a, err := true, errcode := if s.err then s.errcode else 4 }

/-- R195: outside the domain, PIXEL and RESAMPLE raise DOMAIN and change nothing but STATUS. -/
def Obligations.DomainViolationChangesOnlyStatus : Prop :=
  (∀ s : State, srcRows s = 0 ∨ srcCols s = 0 ∨ s.scaleX = 0 ∨ s.scaleY = 0 →
    exec .pixel s = .next { s with err := true, errcode := if s.err then s.errcode else 3 } ∧
    exec .resample s = .next { s with err := true, errcode := if s.err then s.errcode else 3 }) ∧
  (∀ s : State, 0xFFFF < s.opa.toNat ∨ 0xFFFF < s.opb.toNat →
    exec .pixel s = .next { s with err := true, errcode := if s.err then s.errcode else 3 })

/-- R153: where the source is nonempty and both scales are nonzero, RESAMPLE completes, whatever DST_DIM holds: BUSY
becomes 1, DONE 0, the cursor (0, 0), and nothing else changes. -/
def Obligations.ResampleStartsASweep : Prop :=
  ∀ s : State, srcRows s ≠ 0 → srcCols s ≠ 0 → s.scaleX ≠ 0 → s.scaleY ≠ 0 →
    exec .resample s = .next { s with busy := true, done := false, curRow := 0, curCol := 0 }

/-- R32, R42, R67, R121, R122, R151 to R153: the frames of the six commands. -/
def Obligations.CommandFrames : Prop :=
  (∀ (i : Instr) (s t : State), i = .nop ∨ i = .mul ∨ i = .tofix ∨ i = .lerp → exec i s = .next t →
    t = { s with res := t.res } ∧ ∀ a, byteAt t a = byteAt s a) ∧
  (∀ s t : State, exec .pixel s = .next t →
    t = { s with res := t.res, err := t.err, errcode := t.errcode, faultAddr := t.faultAddr } ∧
    ∀ a, byteAt t a = byteAt s a) ∧
  (∀ s t : State, exec .resample s = .next t →
    t = { s with
      busy := t.busy, done := t.done, err := t.err, errcode := t.errcode, curRow := t.curRow, curCol := t.curCol } ∧
    ∀ a, byteAt t a = byteAt s a)

/-! ### The register port -/

/-- R41, R63, R22, R27: an aligned 32-bit read of a register returns its value, or 0 for CMD and the reserved
offsets, and has no side effect; CTRL reads as IRQ_EN, STATUS as ERRCODE [7:4], ERR [2], DONE [1], BUSY [0]. R21: the
fourteen registers stand at the offsets 0x00 to 0x34, for reads and for writes. -/
def Obligations.ReadsReturnTheRegister : Prop :=
  (∀ (s : State) (r : Reg), s.inbox.head? = some (readEvent s r) →
    step s = .next { popped s with response := .data (readReg s r) }) ∧
  (∀ (s : State) (off : Nat), off = 0x38 ∨ off = 0x3C →
    s.inbox.head? = some (.port (.read (s.platform.regBase + off) .w32)) →
    step s = .next { popped s with response := .data 0 }) ∧
  (∀ s : State, readReg s .cmd = 0 ∧ readReg s .opa = s.opa ∧ readReg s .opb = s.opb ∧ readReg s .opc = s.opc ∧
    readReg s .res = s.res ∧ readReg s .scaleX = s.scaleX ∧ readReg s .scaleY = s.scaleY ∧
    readReg s .srcBase = s.srcBase ∧ readReg s .srcDim = s.srcDim ∧ readReg s .dstBase = s.dstBase ∧
    readReg s .dstDim = s.dstDim ∧ readReg s .faultAddr = s.faultAddr ∧
    (readReg s .ctrl).toNat = s.irqEn.toNat ∧
    (readReg s .status).toNat = s.errcode.toNat * 16 + s.err.toNat * 4 + s.done.toNat * 2 + s.busy.toNat) ∧
  (∀ (s : State) (off : Nat) (r : Reg),
    (off, r) ∈ [(0x00, Reg.ctrl), (0x04, .status), (0x08, .cmd), (0x0C, .opa), (0x10, .opb), (0x14, .opc),
      (0x18, .res), (0x1C, .scaleX), (0x20, .scaleY), (0x24, .srcBase), (0x28, .srcDim), (0x2C, .dstBase),
      (0x30, .dstDim), (0x34, .faultAddr)] →
    (s.inbox.head? = some (.port (.read (s.platform.regBase + off) .w32)) →
      step s = .next { popped s with response := .data (readReg s r) }) ∧
    (∀ v : Word, s.inbox.head? = some (.port (.write (s.platform.regBase + off) .w32 v)) →
      step s = writeReg r v (written (popped s))))

/-- R22, R27: a CTRL write stores bit [0]; a STATUS write clears DONE by bit [1] and ERR with ERRCODE by bit [2], in
one step, leaves BUSY alone, and both are taken while BUSY. -/
def Obligations.ControlAndStatusWrites : Prop :=
  (∀ (s : State) (v : Word), nextIsWrite s .ctrl v →
    step s = .next { written (popped s) with irqEn := v.getLsbD 0 }) ∧
  (∀ (s : State) (v : Word), nextIsWrite s .status v →
    step s = .next { written (popped s) with
      done := if v.getLsbD 1 then false else s.done
      err := if v.getLsbD 2 then false else s.err
      errcode := if v.getLsbD 2 then 0 else s.errcode })

/-- R29 to R36: a write of an operand register stores all 32 bits at any time, BUSY included; a write of a
configuration register stores all 32 bits while BUSY = 0; nothing else changes. -/
def Obligations.PlainRegisterWrites : Prop :=
  (∀ (s : State) (v : Word),
    (nextIsWrite s .opa v → step s = .next { written (popped s) with opa := v }) ∧
    (nextIsWrite s .opb v → step s = .next { written (popped s) with opb := v }) ∧
    (nextIsWrite s .opc v → step s = .next { written (popped s) with opc := v })) ∧
  (∀ (s : State) (v : Word), s.busy = false →
    (nextIsWrite s .scaleX v → step s = .next { written (popped s) with scaleX := v }) ∧
    (nextIsWrite s .scaleY v → step s = .next { written (popped s) with scaleY := v }) ∧
    (nextIsWrite s .srcBase v → step s = .next { written (popped s) with srcBase := v }) ∧
    (nextIsWrite s .srcDim v → step s = .next { written (popped s) with srcDim := v }) ∧
    (nextIsWrite s .dstBase v → step s = .next { written (popped s) with dstBase := v }) ∧
    (nextIsWrite s .dstDim v → step s = .next { written (popped s) with dstDim := v }))

/-- R40, R194, R200: while BUSY = 1, a write to CMD, whatever the word, or to a configuration register changes nothing
but STATUS, which records BUSY_WRITE. -/
def Obligations.LockedWritesWhileBusyAreRejected : Prop :=
  ∀ (s : State) (r : Reg) (v : Word), s.busy = true →
    r = .cmd ∨ r = .scaleX ∨ r = .scaleY ∨ r = .srcBase ∨ r = .srcDim ∨ r = .dstBase ∨ r = .dstDim →
    nextIsWrite s r v →
    step s = .next { written (popped s) with err := true, errcode := if s.err then s.errcode else 2 }

/-- R21, R63: writes to RES, FAULT_ADDR and the reserved offsets have no effect and raise no error, BUSY or not. -/
def Obligations.ReadOnlyAndReservedIgnoreWrites : Prop :=
  (∀ (s : State) (v : Word), nextIsWrite s .res v ∨ nextIsWrite s .faultAddr v →
    step s = .next (written (popped s))) ∧
  (∀ (s : State) (off : Nat) (v : Word), off = 0x38 ∨ off = 0x3C →
    s.inbox.head? = some (.port (.write (s.platform.regBase + off) .w32 v)) →
    step s = .next (written (popped s)))

/-- R62, R197, R200: an access in the window that is not 32 bits wide, or whose offset is no multiple of 4, gets
BusError and changes no FXBIL state, whatever it would have done. -/
def Obligations.UnalignedOrNarrowAccessGetsBusError : Prop :=
  ∀ (s : State) (acc : PortAccess), s.inbox.head? = some (.port acc) →
    s.platform.regBase ≤ acc.addr → acc.addr < s.platform.regBase + 64 →
    acc.width ≠ .w32 ∨ (acc.addr - s.platform.regBase) % 4 ≠ 0 →
    step s = .next { popped s with response := .busError }

/-- R61: FXBIL does not see an access outside the 64-byte window (that `response` then says `none` is the model's
choice, log entry 11). -/
def Obligations.AccessOutsideTheWindowIsNotSeen : Prop :=
  ∀ (s : State) (acc : PortAccess), s.inbox.head? = some (.port acc) →
    acc.addr < s.platform.regBase ∨ s.platform.regBase + 64 ≤ acc.addr →
    step s = .next { popped s with response := .none }

/-- R93, R193: a CMD write of an illegal word while BUSY = 0 records ILLEGAL_CMD and changes nothing else. -/
def Obligations.IllegalWordRecordsIllegalCmd : Prop :=
  ∀ (s : State) (v : Word), nextIsWrite s .cmd v → s.busy = false →
    v.toNat / 2 ^ 8 ≠ 0 ∨ 0x06 ≤ v.toNat % 2 ^ 8 →
    step s = .next { written (popped s) with err := true, errcode := if s.err then s.errcode else 1 }

/-! ### Errors, IRQ and reset -/

/-- R192: recording an error sets ERR, and sets ERRCODE only where ERR was clear; nothing else changes; and a command
written while ERR = 1 runs as usual. R191 gives the codes. -/
def Obligations.FirstErrorGivesTheCode : Prop :=
  ∀ (code : ErrCode) (s : State),
    (s.err = false → raiseError code s = { s with err := true, errcode := code.bits }) ∧
    (s.err = true → raiseError code s = s) ∧
    (code.bits = match code with | .illegalCmd => 1 | .busyWrite => 2 | .domain => 3 | .memError => 4) ∧
    (∀ i : Instr, s.err = true → nextIsCommand s i → step s = exec i (written (popped s)))

/-- R25, R26, R203: while ERR = 1, no step changes ERR or ERRCODE but a STATUS write with bit [2] set and a reset, and
those leave both 0. -/
def Obligations.RecordedErrorSticksUntilCleared : Prop :=
  ∀ s t : State, s.err = true → step s = .next t →
    (t.err = true ∧ t.errcode = s.errcode) ∨
    (t.err = false ∧ t.errcode = 0 ∧
      (nextIsReset s ∨ ∃ v : Word, nextIsWrite s .status v ∧ v.getLsbD 2 = true))

/-- R39, R204: the IRQ output is the level `IRQ_EN & (DONE | ERR)`, and the W1C write of both bits drops it in the
same step. -/
def Obligations.IrqIsALevelOfThreeBits : Prop :=
  (∀ s : State, irq s = true ↔ s.irqEn = true ∧ (s.done = true ∨ s.err = true)) ∧
  (∀ (s : State) (v : Word), nextIsWrite s .status v → v.getLsbD 1 = true → v.getLsbD 2 = true →
    ∃ t, step s = .next t ∧ irq t = false) ∧
  irq State.reset = false

/-- R221, R224: the reset values; and R225: from them PIXEL and RESAMPLE raise DOMAIN. -/
def Obligations.ResetValues : Prop :=
  (∀ r : Reg, readReg State.reset r = 0) ∧ readOffset State.reset 0x38 = 0 ∧ readOffset State.reset 0x3C = 0 ∧
  State.reset.curRow = 0 ∧ State.reset.curCol = 0 ∧
  State.reset.busy = false ∧ irq State.reset = false ∧
  exec .pixel State.reset = .next { State.reset with err := true, errcode := 3 } ∧
  exec .resample State.reset = .next { State.reset with err := true, errcode := 3 }

/-- R220 to R223: the reset step, at any point, a sweep included, gives every register and the cursor its reset value
and touches neither the grid memory nor the platform (that the inbox entries still to come stay is the model's
choice, log entry 4). -/
def Obligations.ResetStepKeepsOnlyTheMemory : Prop :=
  ∀ s : State, nextIsReset s →
    step s = .next { State.reset with mem := s.mem, platform := s.platform, inbox := s.inbox.tail }

/-! ### The grid memory -/

/-- R66 to R68: MemRead returns the byte the memory holds where MemOK admits it; MemWrite stores one byte and changes
no other; a refused access does nothing and hands on its address. -/
def Obligations.MemoryPortReadsAndWritesOneByte : Prop :=
  (∀ (s : State) (a : Word),
    memRead s a = if memOK s.platform a .read then .ok (byteAt s a) else .error a) ∧
  (∀ (s : State) (a : Word) (v : Byte), memOK s.platform a .write = false → memWrite s a v = .error a) ∧
  (∀ (s : State) (a : Word) (v : Byte), Memory.wf s.mem → memOK s.platform a .write = true →
    ∃ t, memWrite s a v = .ok t ∧ t = { s with mem := t.mem } ∧ Memory.wf t.mem ∧ byteAt t a = v ∧
      ∀ b, b ≠ a → byteAt t b = byteAt s b)

/-- R65, R85 and R225 (which accesses the host's own path makes is the model's reading, log entry 8): while BUSY = 1
the host has no move that writes a byte of either region or reads the destination region; every other grid access of
the host is made and touches one byte. -/
def Obligations.HostGridAccessesKeepTheDuty : Prop :=
  (∀ (s : State) (a : Word), s.inbox.head? = some (.gridRead a) →
    step s = if s.busy && inDest s a then .refused .hostBreaksGridDuty
      else .next { popped s with response := .gridByte (byteAt s a) }) ∧
  (∀ (s : State) (a : Word) (v : Byte), s.inbox.head? = some (.gridWrite a v) →
    s.busy = true → inSource s a = true ∨ inDest s a = true → step s = .refused .hostBreaksGridDuty) ∧
  (∀ (s : State) (a : Word) (v : Byte), Memory.wf s.mem → s.inbox.head? = some (.gridWrite a v) →
    s.busy = false ∨ (inSource s a = false ∧ inDest s a = false) →
    ∃ t, step s = .next t ∧ t = { written (popped s) with mem := t.mem } ∧
      ∀ b, byteAt t b = if b = a then v else byteAt s b)

/-- R74, R77, R152: whatever step is taken, a byte of the grid memory changes only at the cell under the cursor by an
engine's turn, or by the host's own write of that byte. -/
def Obligations.OnlyTheSweepAndTheHostChangeMemory : Prop :=
  ∀ (s t : State) (a : Word), Memory.wf s.mem → step s = .next t → byteAt t a ≠ byteAt s a →
    (nextIsEngine s ∧ s.busy = true ∧ a = dstAddr s s.curRow s.curCol) ∨
    ∃ v, s.inbox.head? = some (.gridWrite a v)

/-! ### The engine's steps -/

/-- R154: the finish step. -/
def Obligations.FinishStepEndsTheSweep : Prop :=
  ∀ s : State, nextIsEngine s → s.busy = true → s.curRow = dstRows s ∨ dstCols s = 0 →
    step s = .next { popped s with busy := false, done := true }

/-- R155: the pixel step with all five accesses admitted: it stores the pixel at the cell's address, moves the cursor
one cell on in row-major order, and changes nothing else. -/
def Obligations.PixelStepWritesItsCell : Prop :=
  ∀ (s : State) (v : Byte), Memory.wf s.mem → nextIsEngine s → s.busy = true → s.curRow < dstRows s →
    dstCols s > 0 → pixel s s.curRow s.curCol = .ok v →
    memOK s.platform (dstAddr s s.curRow s.curCol) .write = true →
    ∃ t, step s = .next t ∧ t = { popped s with mem := t.mem, curRow := t.curRow, curCol := t.curCol } ∧
      (∀ a, byteAt t a = if a = dstAddr s s.curRow s.curCol then v else byteAt s a) ∧
      (s.curCol.toNat + 1 = (dstCols s).toNat → t.curRow = s.curRow + 1 ∧ t.curCol = 0) ∧
      (s.curCol.toNat + 1 ≠ (dstCols s).toNat → t.curRow = s.curRow ∧ t.curCol = s.curCol + 1)

/-- R156, R196: a pixel step whose read or write is refused ends the sweep: FAULT_ADDR takes the refused address,
MEM_ERROR is recorded, BUSY becomes 0, and DONE, the cursor, the memory and all else stay. -/
def Obligations.RefusedAccessEndsTheSweep : Prop :=
  ∀ (s : State) (a : Word), nextIsEngine s → s.busy = true → s.curRow < dstRows s → dstCols s > 0 →
    pixel s s.curRow s.curCol = .error a ∨
      ((∃ v, pixel s s.curRow s.curCol = .ok v) ∧ a = dstAddr s s.curRow s.curCol ∧
        memOK s.platform a .write = false) →
    step s = .next { popped s with
      faultAddr := a, err := true, errcode := if s.err then s.errcode else 4, busy := false }

/-- With BUSY = 0 an engine's turn changes nothing. The rules (R45, R211) say that the engine then takes no step and all
state is held; that such a turn is a step of the model at all is its reading (DEDUCED, log entry 5), and that it drops
its inbox entry, where it has one, is its choice (DESIGN CHOICE, log entry 6). -/
def Obligations.IdleEngineHoldsAllState : Prop :=
  ∀ s : State, nextIsEngine s → s.busy = false → step s = .next (popped s)

/-- R42: the engine reads none of CTRL, the operand registers and RES and writes none of them: its turn does to
everything else the same whatever they hold. -/
def Obligations.EngineIgnoresTheGeneralRegisters : Prop :=
  ∀ (s : State) (e : Bool) (a b c r : Word) (p : Response),
    engineTurn { s with irqEn := e, opa := a, opb := b, opc := c, res := r, response := p } =
      { engineTurn s with irqEn := e, opa := a, opb := b, opc := c, res := r, response := p }

/-- R201: a STATUS write that clears DONE, next to the finish step: DONE ends at 1 if the write comes first, and at 0
if the finish step does. -/
def Obligations.ClearingDoneRacesTheFinishStep : Prop :=
  ∀ (s : State) (v : Word) (rest : List Event), s.busy = true → s.curRow = dstRows s → v.getLsbD 1 = true →
    (∃ t, core.run 2 { s with inbox := writeEvent s .status v :: .engine :: rest } = .next t ∧ t.done = true ∧
      t.busy = false) ∧
    (∃ t, core.run 2 { s with inbox := .engine :: writeEvent s .status v :: rest } = .next t ∧ t.done = false ∧
      t.busy = false)

/-! ### Whole-machine rules -/

/-- R29 to R32, R42: no step changes RES but MUL, TOFIX, LERP, PIXEL and reset; and no step changes an operand
register but the host's own write of it and reset. -/
def Obligations.GeneralRegistersHaveTheirOwnWriters : Prop :=
  ∀ s t : State, step s = .next t →
    (t.res ≠ s.res →
      nextIsReset s ∨ nextIsCommand s .mul ∨ nextIsCommand s .tofix ∨ nextIsCommand s .lerp ∨
        nextIsCommand s .pixel) ∧
    (t.opa ≠ s.opa → nextIsReset s ∨ nextIsWrite s .opa t.opa) ∧
    (t.opb ≠ s.opb → nextIsReset s ∨ nextIsWrite s .opb t.opb) ∧
    (t.opc ≠ s.opc → nextIsReset s ∨ nextIsWrite s .opc t.opc)

/-- R23, R45: BUSY is set only by RESAMPLE, and cleared only by an engine's turn and by reset; the cursor changes only
by RESAMPLE, an engine's turn and reset. -/
def Obligations.OnlyTheSweepMovesBusyAndCursor : Prop :=
  ∀ s t : State, step s = .next t →
    (s.busy = false → t.busy = true → nextIsCommand s .resample) ∧
    (s.busy = true → t.busy = false → nextIsEngine s ∨ nextIsReset s) ∧
    ((t.curRow, t.curCol) ≠ (s.curRow, s.curCol) →
      nextIsCommand s .resample ∨ (nextIsEngine s ∧ s.busy = true) ∨ nextIsReset s)

/-- R24: DONE is set only by the finish step, and cleared only by an accepted RESAMPLE, by a STATUS write with bit [1]
set and by reset. -/
def Obligations.OnlyTheFinishStepSetsDone : Prop :=
  ∀ s t : State, step s = .next t →
    (s.done = false → t.done = true →
      nextIsEngine s ∧ s.busy = true ∧ t.busy = false ∧ (s.curRow = dstRows s ∨ dstCols s = 0)) ∧
    (s.done = true → t.done = false →
      nextIsReset s ∨ (nextIsCommand s .resample ∧ t.busy = true) ∨
        ∃ v : Word, nextIsWrite s .status v ∧ v.getLsbD 1 = true)

/-- R38, R196: FAULT_ADDR changes only at a MEM_ERROR, of PIXEL or of an engine's turn, to an address the platform
refuses, and by reset. -/
def Obligations.FaultAddrHoldsARefusedAddress : Prop :=
  ∀ s t : State, step s = .next t → t.faultAddr ≠ s.faultAddr →
    nextIsReset s ∨
    ((nextIsCommand s .pixel ∨ (nextIsEngine s ∧ s.busy = true ∧ t.busy = false)) ∧ t.err = true ∧
      (memOK s.platform t.faultAddr .read = false ∨ memOK s.platform t.faultAddr .write = false))

/-- R40, R33 to R36, R160: no step but a reset changes a configuration register while BUSY = 1; a step that changes one
is a reset or a write of the host, taken while BUSY = 0, to some configuration register, which then holds the value
written. That no step changes the platform (REG_BASE and MemOK, R7, R61, R68) is the model's reading (DEDUCED, log
entry 22). -/
def Obligations.ConfigurationIsConstantDuringASweep : Prop :=
  ∀ s t : State, step s = .next t →
    (s.busy = true → ¬nextIsReset s → sameConfig s t) ∧
    (¬sameConfig s t → nextIsReset s ∨ ∃ (r : Reg) (v : Word), nextIsWrite s r v ∧ s.busy = false ∧
      readReg t r = v ∧ (r = .scaleX ∨ r = .scaleY ∨ r = .srcBase ∨ r = .srcDim ∨ r = .dstBase ∨ r = .dstDim)) ∧
    t.platform = s.platform

/-- R190, R85 (log entries 8 and 20): the block never stops: every step answers a next state, but for a grid access
of the host that breaks R85 while BUSY = 1, which is refused. -/
def Obligations.StepStopsOnlyOnABrokenDuty : Prop :=
  ∀ s : State,
    ((∃ t, step s = .next t) ∨ step s = .refused .hostBreaksGridDuty) ∧
    (step s = .refused .hostBreaksGridDuty ↔ s.busy = true ∧
      ((∃ a, s.inbox.head? = some (.gridRead a) ∧ inDest s a = true) ∨
        ∃ a v, s.inbox.head? = some (.gridWrite a v) ∧ (inSource s a = true ∨ inDest s a = true)))

/-! ### Invariants and sweeps -/

/-- The invariant of R26, R37, R45, R191 and of the memory's canonical form holds at reset (with the launch state of
log entries 1 to 4). -/
def Obligations.ResetMeetsTheInvariant : Prop := State.reset.Inv

/-- R26, R37, R45, R191, R61: from every state that meets the invariant, every step gives a state that meets it. -/
def Obligations.EveryStepKeepsTheInvariant : Prop :=
  ∀ s t : State, s.Inv → step s = .next t → t.Inv

/-- R153, R157: an accepted RESAMPLE leaves a sweep under way that has written nothing. -/
def Obligations.AcceptedResampleIsASweepUnderWay : Prop :=
  ∀ s t : State, s.Inv → srcRows s ≠ 0 → srcCols s ≠ 0 → s.scaleX ≠ 0 → s.scaleY ≠ 0 →
    exec .resample s = .next t → sweepUnderWay t t ∧ cellsDone t = 0

/-- R156, R157, R159, R223, R231: whatever steps the host and the engine take in whatever order, a reset apart, a
sweep over disjoint regions stays under way with exactly the cells before its cursor written, or ends by its finish
step with every cell holding its pixel, or ends by a memory error with exactly the cells before its cursor
written. -/
def Obligations.EveryStepKeepsTheSweepsProgress : Prop :=
  ∀ l s t : State, regionsDisjoint l → sweepUnderWay l s → ¬nextIsReset s → step s = .next t →
    sweepUnderWay l t ∨ sweepFinished l t ∨ sweepCut l t

/-- R157, R232: with every access admitted and no host access in between, a sweep makes exactly DST_ROWS * DST_COLS
pixel steps, one cell each, and then one finish step. That an empty inbox is the engine's turn is the model's choice
(log entry 4). -/
def Obligations.SweepTakesOneStepACellAndOneToFinish : Prop :=
  ∀ s : State, s.Inv → s.busy = true → s.curRow = 0 → s.curCol = 0 → s.inbox = [] → sweepAdmitted s →
    (∀ k, k ≤ destCells s → ∃ t, core.run k s = .next t ∧ t.busy = true ∧ cellsDone t = k) ∧
    (∃ t, core.run (destCells s + 1) s = .next t ∧ t.busy = false ∧ t.done = true ∧ t.err = s.err ∧
      cellsDone t = destCells s)

/-- R159: over disjoint regions and with every access admitted, after a sweep every destination byte is the RES value
that PIXEL then gives for its cell. That an empty inbox is the engine's turn is the model's choice (log entry 4). -/
def Obligations.SweepAgreesWithPixel : Prop :=
  ∀ s : State, s.Inv → s.busy = true → s.curRow = 0 → s.curCol = 0 → s.inbox = [] → sweepAdmitted s →
    regionsDisjoint s →
    ∃ t, core.run (destCells s + 1) s = .next t ∧ t.busy = false ∧ t.done = true ∧
      ∀ r c : Half, isDestCell s r c →
        pixel s r c = .ok (byteAt t (dstAddr s r c)) ∧
        exec .pixel { t with opa := r.setWidth 32, opb := c.setWidth 32 } =
          .next { t with opa := r.setWidth 32, opb := c.setWidth 32,
                         res := (byteAt t (dstAddr s r c)).setWidth 32 }

/-- R233: whatever the platform refuses, a sweep left to itself ends within as many steps as it has cells left, and
one more. That the engine moves whenever the inbox is empty is the model's choice (log entry 4). -/
def Obligations.EverySweepEnds : Prop :=
  ∀ s : State, s.Inv → s.busy = true → s.inbox = [] →
    ∃ n t, n ≤ destCells s - cellsDone s + 1 ∧ core.run n s = .next t ∧ t.busy = false

/-- R98, R233: a WAITIDLE ends, and then BUSY = 0. That a failed poll is followed by one engine's turn is the model's
choice (log entry 7); that there is a read of STATUS to give the last value is its reading of R98 (DEDUCED, log
entry 25). -/
def Obligations.WaitIdleEnds : Prop :=
  ∀ s : State, s.Inv → s.inbox = [.waitIdle] →
    ∃ n t, n ≤ 2 * (destCells s + 1) + 1 ∧ core.run n s = .next t ∧ t.inbox = [] ∧ t.busy = false ∧
      t.response = .data (statusWord t)

/-! ### Host programs -/

/-- R97, R98: from BUSY = 0, the expansions of SETSRC, SETDST, SETSCALE and CLRSTATUS do what their names say, for
every extent that is well formed. -/
def Obligations.PseudoInstructionsConfigureTheBlock : Prop :=
  ∀ (s : State) (b sy sx : Word) (rows cols : Nat), s.busy = false → s.inbox = [] →
    (HostLine.setSrc b rows cols).wf = true →
    core.run 2 (s.launch [.setSrc b rows cols]) =
      .next { s with srcBase := b, srcDim := BitVec.ofNat 32 (rows * 65536 + cols), response := .taken } ∧
    core.run 2 (s.launch [.setDst b rows cols]) =
      .next { s with dstBase := b, dstDim := BitVec.ofNat 32 (rows * 65536 + cols), response := .taken } ∧
    core.run 2 (s.launch [.setScale sy sx]) =
      .next { s with scaleY := sy, scaleX := sx, response := .taken } ∧
    core.run 1 (s.launch [.clrStatus]) =
      .next { s with done := false, err := false, errcode := 0, response := .taken }

/-- R234: a run has ended exactly when BUSY = 0 and no access of the host is still to come (what counts as one is the
model's reading, log entry 26). R211: the registers and the grid memory, which are the observation at the end, are then
held by every further step but a reset (that there is a further step is the model's reading, log entries 5 and 6). -/
def Obligations.EndedRunHoldsItsObservation : Prop :=
  (∀ s : State, runEnded s = true ↔ s.busy = false ∧ ∀ e ∈ s.inbox, e = .engine ∨ e = .reset) ∧
  (∀ s t : State, runEnded s = true → ¬nextIsReset s → step s = .next t →
    runEnded t = true ∧ observation t = observation s) ∧
  (∀ s t : State, (∀ r : Reg, readReg t r = readReg s r) ∧ t.mem = s.mem ↔ observation t = observation s)
end

