-- ==== Sys2Proof/Laws/Decode.lean ====
section
/-! SUPPORT. The decoder on natural numbers. -/

namespace Sys2Proof

theorem rsvdField_toNat (v : Word) : (rsvdField v).toNat = v.toNat / 256 := by
  have := v.isLt
  rw [rsvdField, BitVec.extractLsb'_toNat, Nat.shiftRight_eq_div_pow]; omega

theorem opcodeField_toNat (v : Word) : (opcodeField v).toNat = v.toNat % 256 := by
  rw [opcodeField, BitVec.extractLsb'_toNat, Nat.shiftRight_zero]

theorem rsvdField_eq_zero {v : Word} : rsvdField v = 0 ↔ v.toNat / 256 = 0 := by
  rw [← BitVec.toNat_inj, rsvdField_toNat]; rfl

/-- A word with a nonzero RSVD field is illegal, whatever its OPCODE (R93). -/
theorem decode_of_rsvd {v : Word} (h : v.toNat / 256 ≠ 0) : decode v = .illegal .reservedFieldNonzero := by
  rw [decode, if_pos (fun h0 => h (rsvdField_eq_zero.1 h0))]

/-- A word with a zero RSVD field is decoded by its OPCODE (R91). -/
theorem decode_of_opcode {v : Word} (h : v.toNat / 256 = 0) : decode v = opcodeMap (opcodeField v) := by
  rw [decode, if_neg (fun h0 => h0 (rsvdField_eq_zero.2 h))]

/-- What decodes to a command is that command's word. -/
theorem eq_encode_of_decode {v : Word} {i : Instr} (h : decode v = .cmd i) : v = encode i := by
  by_cases hr : v.toNat / 256 = 0
  · rw [decode_of_opcode hr, opcodeMap, opcodeField_toNat, show v.toNat % 256 = v.toNat by omega] at h
    apply BitVec.eq_of_toNat_eq
    split at h <;> cases h <;> (next hv => rw [hv]; rfl)
  · rw [decode_of_rsvd hr] at h; cases h

end Sys2Proof
end

