-- ==== Sys2Proof/Laws/Fixed.lean ====
section
/-! SUPPORT. The arithmetic of Machine/Fixed.lean, Machine/Operands.lean and Machine/Resampler.lean on exact natural
numbers, and of Machine/HostRef.lean on rationals: one lemma per function. -/

namespace Sys2Proof.Machine

/-! ### The arithmetic unit -/

theorem fxmul_toNat (a b : Word) : (fxmul a b).toNat = a.toNat * b.toNat / 2 ^ 16 % 2 ^ 32 := by
  have h : a.toNat * b.toNat < 2 ^ 64 :=
    calc a.toNat * b.toNat < 2 ^ 32 * 2 ^ 32 := Nat.mul_lt_mul'' a.isLt b.isLt
      _ = 2 ^ 64 := by norm_num
  have ha : a.toNat < 2 ^ 64 := a.isLt.trans (by norm_num)
  have hb : b.toNat < 2 ^ 64 := b.isLt.trans (by norm_num)
  simp only [fxmul, BitVec.extractLsb'_toNat, BitVec.toNat_mul, BitVec.toNat_setWidth, Nat.shiftRight_eq_div_pow,
    Nat.mod_eq_of_lt ha, Nat.mod_eq_of_lt hb, Nat.mod_eq_of_lt h]

theorem tofix_toNat (n : Word) : (tofix n).toNat = n.toNat % 65536 * 65536 := by
  rw [tofix, BitVec.toNat_append, BitVec.extractLsb'_toNat, Nat.shiftRight_zero, Nat.shiftLeft_eq,
    show (0 : BitVec 16).toNat = 0 from rfl, Nat.or_zero]

theorem tofixHalf_toNat (n : Half) : (tofixHalf n).toNat = n.toNat * 65536 := by
  have := n.isLt
  rw [tofixHalf, tofix_toNat, BitVec.toNat_setWidth]
  omega

theorem tofixByte_toNat (b : Byte) : (tofixByte b).toNat = b.toNat * 65536 := by
  have := b.isLt
  rw [tofixByte, tofix_toNat, BitVec.toNat_setWidth]
  omega

/-- A fixed-point integer times a FixedPoint is an integer multiply (R114 law 4), where the integer is written as a
multiple of 2^16. -/
theorem fxmul_toNat_of_integer {a : Word} {n : Nat} (h : a.toNat = n * 65536) (b : Word) :
    (fxmul a b).toNat = n * b.toNat % 2 ^ 32 := by
  rw [fxmul_toNat, h, Nat.mul_right_comm, show (2 : Nat) ^ 16 = 65536 by norm_num,
    Nat.mul_div_cancel _ (by norm_num)]

theorem fxmul_comm (a b : Word) : fxmul a b = fxmul b a := by
  apply BitVec.eq_of_toNat_eq
  rw [fxmul_toNat, fxmul_toNat, Nat.mul_comm]

/-- `ONE - f` for a weight below ONE does not wrap (R145). -/
theorem one_sub_toNat {f : Word} (hf : f.toNat ≤ 0xFFFF) : (fixedOne - f).toNat = 65536 - f.toNat := by
  rw [BitVec.toNat_sub_of_le]
  · rfl
  · rw [BitVec.le_def]; exact hf.trans (by decide)

theorem blend_toNat {f : Word} (hf : f.toNat ≤ 0xFFFF) (p q : Word) :
    (blend f p q).toNat = ((65536 - f.toNat) * p.toNat / 2 ^ 16 % 2 ^ 32
      + f.toNat * q.toNat / 2 ^ 16 % 2 ^ 32) % 2 ^ 32 := by
  rw [blend, BitVec.toNat_add, fxmul_toNat, fxmul_toNat, one_sub_toNat hf]

/-- Neither term nor the sum of a blend wraps where both inputs are at most `m < 2^32`. -/
theorem blend_toNat_of_le {f p q : Word} {m : Nat} (hf : f.toNat ≤ 0xFFFF) (hp : p.toNat ≤ m) (hq : q.toNat ≤ m)
    (hm : m < 2 ^ 32) :
    (blend f p q).toNat = (65536 - f.toNat) * p.toNat / 65536 + f.toNat * q.toNat / 65536 ∧
      (blend f p q).toNat ≤ m := by
  have h1 : (65536 - f.toNat) * p.toNat ≤ (65536 - f.toNat) * m := Nat.mul_le_mul_left _ hp
  have h2 : f.toNat * q.toNat ≤ f.toNat * m := Nat.mul_le_mul_left _ hq
  have h3 : (65536 - f.toNat) * m + f.toNat * m = 65536 * m := by
    rw [← Nat.add_mul]; congr 1; omega
  rw [blend_toNat hf]
  generalize (65536 - f.toNat) * p.toNat = x at *
  generalize f.toNat * q.toNat = y at *
  generalize (65536 - f.toNat) * m = u at *
  generalize f.toNat * m = v at *
  omega

/-- A blend at weight 0 gives its first input exactly (R151). -/
theorem blend_zero (p q : Word) : blend 0 p q = p := by
  apply BitVec.eq_of_toNat_eq
  have := p.isLt
  rw [blend_toNat (by decide), show (0 : Word).toNat = 0 from rfl]
  omega

/-! ### Fields -/

theorem and_lowerMask_toNat (v : Word) : (v &&& lowerMask).toNat = v.toNat % 65536 := by
  rw [BitVec.toNat_and, show lowerMask.toNat = 2 ^ 16 - 1 by decide, Nat.and_two_pow_sub_one_eq_mod]

theorem and_upperMask (v : Word) : v &&& upperMask = (v >>> 16) <<< 16 := by
  have mask : ∀ i : Fin 32, upperMask[i.val] = decide (16 ≤ i.val) := by decide
  ext i hi
  rw [BitVec.getElem_and, mask ⟨i, hi⟩, BitVec.getElem_shiftLeft]
  by_cases h : i < 16
  · simp [h]
  · simp [h, show 16 ≤ i by omega, BitVec.getLsbD_eq_getElem hi]

theorem and_upperMask_toNat (v : Word) : (v &&& upperMask).toNat = v.toNat / 65536 * 65536 := by
  have := v.isLt
  rw [and_upperMask, BitVec.toNat_shiftLeft, BitVec.toNat_ushiftRight, Nat.shiftLeft_eq,
    Nat.shiftRight_eq_div_pow]
  omega

theorem srcRows_toNat (s : State) : (srcRows s).toNat = s.srcDim.toNat / 65536 := by
  have := s.srcDim.isLt
  rw [srcRows, BitVec.extractLsb'_toNat, Nat.shiftRight_eq_div_pow]; omega

theorem srcCols_toNat (s : State) : (srcCols s).toNat = s.srcDim.toNat % 65536 := by
  rw [srcCols, BitVec.extractLsb'_toNat, Nat.shiftRight_zero]

theorem dstRows_toNat (s : State) : (dstRows s).toNat = s.dstDim.toNat / 65536 := by
  have := s.dstDim.isLt
  rw [dstRows, BitVec.extractLsb'_toNat, Nat.shiftRight_eq_div_pow]; omega

theorem dstCols_toNat (s : State) : (dstCols s).toNat = s.dstDim.toNat % 65536 := by
  rw [dstCols, BitVec.extractLsb'_toNat, Nat.shiftRight_zero]

theorem gridIndex_toNat (v : Word) : (gridIndex v).toNat = v.toNat / 65536 := by
  have := v.isLt
  rw [gridIndex, BitVec.extractLsb'_toNat, Nat.shiftRight_eq_div_pow]; omega

theorem lerpWeight_toNat (s : State) : (lerpWeight s).toNat = s.opc.toNat % 65536 := and_lowerMask_toNat _

theorem lerpWeight_le (s : State) : (lerpWeight s).toNat ≤ 0xFFFF := by
  rw [lerpWeight_toNat]; omega

theorem ofBool_toNat (b : Bool) : (BitVec.ofBool b).toNat = b.toNat := by cases b <;> rfl

theorem ctrlWord_toNat (s : State) : (ctrlWord s).toNat = s.irqEn.toNat := by
  unfold ctrlWord; cases s.irqEn <;> rfl

theorem statusWord_toNat (s : State) :
    (statusWord s).toNat = s.errcode.toNat * 16 + s.err.toNat * 4 + s.done.toNat * 2 + s.busy.toNat := by
  unfold statusWord
  have key : ∀ (e : BitVec 4) (a b c : Bool),
      ((e ++ (0 : BitVec 1) ++ BitVec.ofBool a ++ BitVec.ofBool b ++ BitVec.ofBool c).setWidth 32).toNat =
        e.toNat * 16 + a.toNat * 4 + b.toNat * 2 + c.toNat := by decide
  exact key _ _ _ _

/-- Bit [0] of STATUS is BUSY (R27). -/
theorem statusWord_bit0 (s : State) : (statusWord s).getLsbD 0 = s.busy := by
  unfold statusWord
  have key : ∀ (e : BitVec 4) (a b c : Bool),
      ((e ++ (0 : BitVec 1) ++ BitVec.ofBool a ++ BitVec.ofBool b ++ BitVec.ofBool c).setWidth 32).getLsbD 0
        = c := by decide
  exact key _ _ _ _

/-! ### Addresses -/

theorem cellOffset_lt {r c : Half} {n : Nat} (hn : n < 65536) : r.toNat * n + c.toNat < 2 ^ 32 := by
  have h1 : r.toNat * n ≤ 65535 * 65535 := Nat.mul_le_mul (by have := r.isLt; omega) (by omega)
  have := c.isLt
  omega

theorem srcAddr_toNat (s : State) (r c : Half) :
    (srcAddr s r c).toNat = (s.srcBase.toNat + (r.toNat * (srcCols s).toNat + c.toNat)) % 2 ^ 32 := by
  have h := cellOffset_lt (r := r) (c := c) (srcCols s).isLt
  have := (srcCols s).isLt
  have := r.isLt
  have := c.isLt
  simp only [srcAddr, BitVec.toNat_add, BitVec.toNat_mul, BitVec.toNat_setWidth]
  rw [Nat.mod_eq_of_lt (a := r.toNat) (by omega), Nat.mod_eq_of_lt (a := (srcCols s).toNat) (by omega),
    Nat.mod_eq_of_lt (a := c.toNat) (by omega)]
  generalize r.toNat * (srcCols s).toNat = x at *
  omega

theorem dstAddr_toNat (s : State) (r c : Half) :
    (dstAddr s r c).toNat = (s.dstBase.toNat + (r.toNat * (dstCols s).toNat + c.toNat)) % 2 ^ 32 := by
  have h := cellOffset_lt (r := r) (c := c) (dstCols s).isLt
  have := (dstCols s).isLt
  have := r.isLt
  have := c.isLt
  simp only [dstAddr, BitVec.toNat_add, BitVec.toNat_mul, BitVec.toNat_setWidth]
  rw [Nat.mod_eq_of_lt (a := r.toNat) (by omega), Nat.mod_eq_of_lt (a := (dstCols s).toNat) (by omega),
    Nat.mod_eq_of_lt (a := c.toNat) (by omega)]
  generalize r.toNat * (dstCols s).toNat = x at *
  omega

/-- The distance of a cell's address from its base is the cell's place in the grid. -/
theorem srcAddr_sub_base (s : State) (r c : Half) :
    (srcAddr s r c - s.srcBase).toNat = r.toNat * (srcCols s).toNat + c.toNat := by
  have h := cellOffset_lt (r := r) (c := c) (srcCols s).isLt
  have := s.srcBase.isLt
  rw [BitVec.toNat_sub, srcAddr_toNat]
  omega

theorem dstAddr_sub_base (s : State) (r c : Half) :
    (dstAddr s r c - s.dstBase).toNat = r.toNat * (dstCols s).toNat + c.toNat := by
  have h := cellOffset_lt (r := r) (c := c) (dstCols s).isLt
  have := s.dstBase.isLt
  rw [BitVec.toNat_sub, dstAddr_toNat]
  omega

/-- A cell's place is below the number of cells. -/
theorem cell_place_lt {r c rows cols : Nat} (hr : r < rows) (hc : c < cols) : r * cols + c < rows * cols := by
  calc r * cols + c < r * cols + cols := by omega
    _ = (r + 1) * cols := by ring
    _ ≤ rows * cols := Nat.mul_le_mul_right _ hr

theorem inSource_srcAddr {s : State} {r c : Half} (hr : r < srcRows s) (hc : c < srcCols s) :
    inSource s (srcAddr s r c) = true := by
  rw [inSource, inRegion, srcAddr_sub_base]
  exact decide_eq_true (cell_place_lt hr hc)

theorem inDest_dstAddr {s : State} {r c : Half} (h : isDestCell s r c) : inDest s (dstAddr s r c) = true := by
  rw [inDest, inRegion, dstAddr_sub_base]
  exact decide_eq_true (cell_place_lt h.1 h.2)

/-- Two places in a grid with the same number are the same cell. -/
theorem cell_of_place {r c r' c' cols : Nat} (hc : c < cols) (hc' : c' < cols)
    (h : r * cols + c = r' * cols + c') : r = r' ∧ c = c' := by
  have h1 : c = c' := by
    have := congrArg (· % cols) h
    simpa [Nat.add_comm, Nat.add_mul_mod_self_right, Nat.mod_eq_of_lt hc, Nat.mod_eq_of_lt hc'] using this
  subst h1
  exact ⟨Nat.eq_of_mul_eq_mul_right (by omega) (by omega : r * cols = r' * cols), rfl⟩

/-! ### The pipeline stages -/

theorem clamp_toNat (v lim : Word) : (clamp v lim).toNat = min v.toNat lim.toNat := by
  unfold clamp
  split
  · next h => rw [Nat.min_eq_right (BitVec.lt_def.1 h).le]
  · next h => rw [Nat.min_eq_left (Nat.le_of_not_lt fun h' => h (BitVec.lt_def.2 h'))]

theorem limit_toNat {n : Half} (h : n ≠ 0) : (tofixHalf n - fixedOne).toNat = (n.toNat - 1) * 65536 := by
  have hn : n.toNat ≠ 0 := fun h0 => h (BitVec.eq_of_toNat_eq (by simpa using h0))
  have h1 : fixedOne.toNat = 65536 := by decide
  rw [BitVec.toNat_sub_of_le, tofixHalf_toNat, h1]
  · omega
  · rw [BitVec.le_def, tofixHalf_toNat, h1]; omega

theorem splitNext_toNat (t : Word) : (splitNext t).toNat = (t.toNat / 65536 + 1) * 65536 % 2 ^ 32 := by
  rw [splitNext, BitVec.toNat_add, splitBase, and_upperMask_toNat, show fixedOne.toNat = 65536 by decide]
  omega

theorem splitFact_le (t : Word) : (splitFact t).toNat ≤ 0xFFFF := by
  rw [splitFact, and_lowerMask_toNat]; omega

/-- A coordinate clamped to a nonempty axis indexes inside it (R149 law 4). -/
theorem gridIndex_clamp_lt {n : Half} (h : n ≠ 0) (v : Word) :
    gridIndex (clamp v (tofixHalf n - fixedOne)) < n := by
  have hn : n.toNat ≠ 0 := fun h0 => h (BitVec.eq_of_toNat_eq (by simpa using h0))
  rw [BitVec.lt_def, gridIndex_toNat, clamp_toNat, limit_toNat h]
  omega

/-- The index of a clamped coordinate: its whole part, or the last index of a nonempty axis (R143, R144). -/
theorem gridIndex_clamp_toNat {n : Half} (h : n ≠ 0) (v : Word) :
    (gridIndex (clamp v (tofixHalf n - fixedOne))).toNat = min (v.toNat / 65536) (n.toNat - 1) := by
  rw [gridIndex_toNat, clamp_toNat, limit_toNat h]
  omega

theorem splitBase_index (t : Word) : (splitBase t).toNat / 65536 = t.toNat / 65536 := by
  rw [splitBase, and_upperMask_toNat]; omega

theorem splitNext_index (t : Word) : (splitNext t).toNat / 65536 = (t.toNat / 65536 + 1) % 65536 := by
  rw [splitNext_toNat]; omega

theorem projectX_toNat (s : State) (col : Half) : (projectX s col).toNat = col.toNat * s.scaleX.toNat % 2 ^ 32 :=
  fxmul_toNat_of_integer (tofixHalf_toNat col) _

theorem projectY_toNat (s : State) (row : Half) : (projectY s row).toNat = row.toNat * s.scaleY.toNat % 2 ^ 32 :=
  fxmul_toNat_of_integer (tofixHalf_toNat row) _

theorem extract_toNat (v : Word) : (extract v).toNat = v.toNat / 65536 % 256 := by
  rw [extract, BitVec.toNat_setWidth, BitVec.toNat_and, BitVec.toNat_ushiftRight, Nat.shiftRight_eq_div_pow,
    show (0xFF : Word).toNat = 2 ^ 8 - 1 by decide, Nat.and_two_pow_sub_one_eq_mod]
  omega

/-- The horizontal blend of two samples is exact (R149 law 1). -/
theorem blend_bytes_toNat {f : Word} (hf : f.toNat ≤ 0xFFFF) (a b : Byte) :
    (blend f (tofixByte a) (tofixByte b)).toNat = (65536 - f.toNat) * a.toNat + f.toNat * b.toNat := by
  have ha := a.isLt
  have hb := b.isLt
  have h := (blend_toNat_of_le (m := 255 * 65536) hf (p := tofixByte a) (q := tofixByte b)
    (by rw [tofixByte_toNat]; omega) (by rw [tofixByte_toNat]; omega) (by norm_num)).1
  rw [h, tofixByte_toNat, tofixByte_toNat, ← Nat.mul_assoc, ← Nat.mul_assoc, Nat.mul_div_cancel _ (by norm_num),
    Nat.mul_div_cancel _ (by norm_num)]

/-- A blend of two samples lies between them, in units of 2^-16. -/
theorem blend_bytes_between {f : Word} (hf : f.toNat ≤ 0xFFFF) (a b : Byte) :
    min a.toNat b.toNat * 65536 ≤ (blend f (tofixByte a) (tofixByte b)).toNat ∧
      (blend f (tofixByte a) (tofixByte b)).toNat ≤ max a.toNat b.toNat * 65536 := by
  rw [blend_bytes_toNat hf]
  have split65536 : ∀ m : Nat, m * 65536 = (65536 - f.toNat) * m + f.toNat * m := fun m => by
    rw [← Nat.add_mul, Nat.mul_comm]; congr 1; omega
  rw [split65536, split65536]
  exact ⟨Nat.add_le_add (Nat.mul_le_mul_left _ (Nat.min_le_left _ _)) (Nat.mul_le_mul_left _ (Nat.min_le_right _ _)),
    Nat.add_le_add (Nat.mul_le_mul_left _ (Nat.le_max_left _ _)) (Nat.mul_le_mul_left _ (Nat.le_max_right _ _))⟩

/-! ### The host's reference functions -/

/-- In its domain `to_fixed` is the nearest multiple of 2^-16, halves upwards, mod 2^32 (R118). -/
theorem hostToFixed_of_domain {q : ℚ} (h0 : 0 ≤ q) (h1 : q < 65536) :
    hostToFixed q = BitVec.ofInt 32 ⌊q * 65536 + 1 / 2⌋ := by
  have round : (⌊q⌋ : ℤ) * 65536 + ⌊(q - (⌊q⌋ : ℚ)) * 65536 + 1 / 2⌋ = ⌊q * 65536 + 1 / 2⌋ := by
    rw [show q * 65536 + 1 / 2 = (q - (⌊q⌋ : ℚ)) * 65536 + 1 / 2 + ((⌊q⌋ * 65536 : ℤ) : ℚ) by push_cast; ring,
      Int.floor_add_intCast]
    ring
  rw [hostToFixed, if_pos ⟨h0, h1⟩, ← round]
  rfl

/-- For a destination that is not empty, the scale is `to_fixed` of the ratio of the extents (R226). -/
theorem hostScale_of_ne_zero {n m : Nat} (h : m ≠ 0) : hostScale n m = hostToFixed ((n : ℚ) / (m : ℚ)) := if_neg h

end Sys2Proof.Machine
end

