-- ==== Sys2Proof/Laws/Memory.lean ====
section
/-! SUPPORT. The grid memory's laws: the canonical form is kept, a read after a write, equal reads make equal
memories, and every grid memory and every MemOK is represented. -/

namespace Sys2Proof.Machine

/-- What a lower address than every listed one reads as. -/
theorem read_of_lt_all {m : Memory} {a : Nat} (h : ∀ c ∈ m, a < c.1) :
    Memory.read m a = Config.unlistedByte := by
  induction m with
  | nil => rfl
  | cons c rest ih =>
    obtain ⟨k, w⟩ := c
    have hk : a < k := h (k, w) (by simp)
    simp only [Memory.read, Nat.ne_of_gt hk, if_false]
    exact ih fun c hc => h c (List.mem_cons_of_mem _ hc)

theorem read_consCell (a b : Nat) (v : Byte) (m : Memory) (h : ∀ c ∈ m, a < c.1) :
    Memory.read (Memory.consCell a v m) b = if a = b then v else Memory.read m b := by
  unfold Memory.consCell
  split
  · next hv =>
    split
    · next hab => subst hab; rw [read_of_lt_all h, hv]
    · rfl
  · rfl

/-- The tail of a canonical memory is canonical, and its addresses are above the head's. -/
theorem wf_cons {k : Nat} {w : Byte} {rest : Memory} :
    Memory.wf ((k, w) :: rest) ↔
      (∀ c ∈ rest, k < c.1) ∧ k < Config.gridBytes ∧ w ≠ Config.unlistedByte ∧ Memory.wf rest := by
  simp only [Memory.wf, List.pairwise_cons, List.mem_cons, forall_eq_or_imp]
  tauto

theorem wf_consCell {a : Nat} {v : Byte} {m : Memory} (hm : Memory.wf m) (ha : a < Config.gridBytes)
    (h : ∀ c ∈ m, a < c.1) : Memory.wf (Memory.consCell a v m) := by
  unfold Memory.consCell
  split
  · exact hm
  · next hv => exact wf_cons.2 ⟨h, ha, hv, hm⟩

/-- Addresses above `b` stay above `b` when the address written is above `b` too. -/
theorem lt_all_write {m : Memory} {a b : Nat} {v : Byte} (h : ∀ c ∈ m, b < c.1) (hb : b < a) :
    ∀ c ∈ Memory.write m a v, b < c.1 := by
  have cons : ∀ n : Memory, (∀ c ∈ n, b < c.1) → ∀ c ∈ Memory.consCell a v n, b < c.1 := by
    intro n hn c hc
    unfold Memory.consCell at hc
    split at hc
    · exact hn c hc
    · obtain rfl | hc := List.mem_cons.1 hc
      · exact hb
      · exact hn c hc
  induction m with
  | nil => exact cons [] h
  | cons d rest ih =>
    obtain ⟨k, w⟩ := d
    have hrest : ∀ c ∈ rest, b < c.1 := fun c hc => h c (List.mem_cons_of_mem _ hc)
    unfold Memory.write
    split
    · exact cons _ h
    · split
      · exact cons _ hrest
      · intro c hc
        obtain rfl | hc := List.mem_cons.1 hc
        · exact h _ (by simp)
        · exact ih hrest c hc

/-- A write keeps the canonical form. -/
theorem wf_write {m : Memory} (hm : Memory.wf m) {a : Nat} (ha : a < Config.gridBytes) (v : Byte) :
    Memory.wf (Memory.write m a v) := by
  induction m with
  | nil => exact wf_consCell hm ha (by simp)
  | cons d rest ih =>
    obtain ⟨k, w⟩ := d
    obtain ⟨hlt, hk, hw, hrest⟩ := wf_cons.1 hm
    unfold Memory.write
    split
    · next hak =>
      refine wf_consCell hm ha fun c hc => ?_
      obtain rfl | hc := List.mem_cons.1 hc
      · exact hak
      · exact hak.trans (hlt c hc)
    · split
      · next hak => exact wf_consCell hrest ha (hak ▸ hlt)
      · next h1 h2 => exact wf_cons.2 ⟨lt_all_write hlt (by omega), hk, hw, ih hrest⟩

/-- A read after a write, at every address. -/
theorem read_write {m : Memory} (hm : Memory.wf m) (a b : Nat) (v : Byte) :
    Memory.read (Memory.write m a v) b = if a = b then v else Memory.read m b := by
  induction m with
  | nil => exact read_consCell a b v [] (by simp)
  | cons d rest ih =>
    obtain ⟨k, w⟩ := d
    obtain ⟨hlt, -, -, hrest⟩ := wf_cons.1 hm
    unfold Memory.write
    split
    · next hak =>
      refine read_consCell a b v _ fun c hc => ?_
      obtain rfl | hc := List.mem_cons.1 hc
      · exact hak
      · exact hak.trans (hlt c hc)
    · split
      · next hak =>
        subst hak
        rw [read_consCell a b v rest hlt]
        by_cases hab : a = b <;> simp [Memory.read, hab]
      · next h1 h2 =>
        simp only [Memory.read, ih hrest]
        by_cases hkb : k = b
        · simp [hkb, show ¬a = b by omega]
        · simp [hkb]

/-- `byteAt` after `storeByte`. -/
theorem byteAt_storeByte {s : State} (hm : Memory.wf s.mem) (a b : Word) (v : Byte) :
    byteAt (storeByte a v s) b = if a = b then v else byteAt s b := by
  simp only [byteAt, storeByte, read_write hm, BitVec.toNat_inj]

theorem wf_storeByte {s : State} (hm : Memory.wf s.mem) (a : Word) (v : Byte) :
    Memory.wf (storeByte a v s).mem :=
  wf_write hm a.isLt v

/-- In a canonical memory, the first entry is what its address reads as. -/
theorem read_head (k : Nat) (w : Byte) (m : Memory) : Memory.read ((k, w) :: m) k = w := by
  simp [Memory.read]

/-- Two canonical memories that read the same at every address are equal data. -/
theorem ext_of_read {m n : Memory} (hm : Memory.wf m) (hn : Memory.wf n)
    (h : ∀ a, Memory.read m a = Memory.read n a) : m = n := by
  induction m generalizing n with
  | nil =>
    cases n with
    | nil => rfl
    | cons d rest =>
      obtain ⟨k, w⟩ := d
      have := h k
      rw [read_head] at this
      exact absurd this.symm (wf_cons.1 hn).2.2.1
  | cons c rest ih =>
    obtain ⟨k, w⟩ := c
    obtain ⟨hlt, -, hw, hrest⟩ := wf_cons.1 hm
    cases n with
    | nil =>
      have := h k
      rw [read_head] at this
      exact absurd this hw
    | cons d rest' =>
      obtain ⟨k', w'⟩ := d
      obtain ⟨hlt', -, hw', hrest'⟩ := wf_cons.1 hn
      have hkk : k = k' := by
        rcases Nat.lt_trichotomy k k' with hlt1 | heq | hgt
        · have := h k
          rw [read_head, read_of_lt_all] at this
          · exact absurd this hw
          · intro c hc
            obtain rfl | hc := List.mem_cons.1 hc
            · exact hlt1
            · exact hlt1.trans (hlt' c hc)
        · exact heq
        · have := h k'
          rw [read_head, read_of_lt_all] at this
          · exact absurd this.symm hw'
          · intro c hc
            obtain rfl | hc := List.mem_cons.1 hc
            · exact hgt
            · exact hgt.trans (hlt c hc)
      subst hkk
      have hww : w = w' := by
        have := h k
        rwa [read_head, read_head] at this
      subst hww
      congr 1
      refine ih hrest hrest' fun a => ?_
      by_cases ha : k = a
      · subst ha
        rw [read_of_lt_all hlt, read_of_lt_all hlt']
      · simpa [Memory.read, ha] using h a

/-- Every assignment of bytes to the 2^32 addresses is a canonical memory: the list loses nothing (R65). -/
theorem memory_represents (f : Word → Byte) :
    ∃ m : Memory, Memory.wf m ∧ ∀ a : Word, Memory.read m a.toNat = f a := by
  have key : ∀ l : List Word, ∃ m : Memory, Memory.wf m ∧ ∀ a ∈ l, Memory.read m a.toNat = f a := by
    intro l
    induction l with
    | nil => exact ⟨[], by simp [Memory.wf], by simp⟩
    | cons b l ih =>
      obtain ⟨m, hm, hf⟩ := ih
      refine ⟨Memory.write m b.toNat (f b), wf_write hm b.isLt _, fun a ha => ?_⟩
      rw [read_write hm]
      split
      · next hab => rw [BitVec.eq_of_toNat_eq hab]
      · next hab =>
        obtain rfl | ha := List.mem_cons.1 ha
        · exact absurd rfl hab
        · exact hf a ha
  obtain ⟨m, hm, hf⟩ := key ((List.finRange (2 ^ 32)).map BitVec.ofFin)
  refine ⟨m, hm, fun a => hf a ?_⟩
  exact List.mem_map.2 ⟨a.toFin, List.mem_finRange _, rfl⟩

/-- Every MemOK is some platform's: the list of refused ranges loses nothing (R68). -/
theorem memOK_represents (f : Word → AccessKind → Bool) :
    ∃ p : Platform, ∀ a k, memOK p a k = f a k := by
  let words : List Word := (List.finRange (2 ^ 32)).map BitVec.ofFin
  have hmem : ∀ a : Word, a ∈ words := fun a => List.mem_map.2 ⟨a.toFin, List.mem_finRange _, rfl⟩
  let ranges (k : AccessKind) : List RefusedRange :=
    (words.filter fun a => !f a k).map fun a => { kind := k, first := a, last := a }
  refine ⟨{ regBase := 0, refused := ranges .read ++ ranges .write }, fun a k => ?_⟩
  have hany : ∀ k', (ranges k').any (fun r => r.kind == k && decide (r.first ≤ a) && decide (a ≤ r.last))
      = (decide (k' = k) && !f a k') := by
    intro k'
    rw [Bool.eq_iff_iff]
    simp only [ranges, List.any_map, List.any_eq_true, List.mem_filter, Function.comp_apply,
      Bool.and_eq_true, beq_iff_eq, decide_eq_true_eq]
    constructor
    · rintro ⟨b, ⟨-, hf⟩, ⟨hk, h1⟩, h2⟩
      have : b = a := BitVec.le_antisymm h1 h2
      exact ⟨hk, this ▸ hf⟩
    · rintro ⟨hk, hf⟩
      exact ⟨a, ⟨hmem a, hf⟩, ⟨hk, BitVec.le_refl a⟩, BitVec.le_refl a⟩
  unfold memOK
  rw [List.any_append, hany, hany]
  cases k <;> simp

end Sys2Proof.Machine
end

