-- ==== Sys2Proof/Laws/State.lean ====
section
/-! SUPPORT. What each named state update leaves in each field: one lemma per field per update. -/

namespace Sys2Proof.Machine

/-! ### `raiseError` -/

@[simp] theorem raiseError_irqEn (code : ErrCode) (s : State) : (raiseError code s).irqEn = s.irqEn := rfl
@[simp] theorem raiseError_busy (code : ErrCode) (s : State) : (raiseError code s).busy = s.busy := rfl
@[simp] theorem raiseError_done (code : ErrCode) (s : State) : (raiseError code s).done = s.done := rfl
@[simp] theorem raiseError_err (code : ErrCode) (s : State) : (raiseError code s).err = true := rfl
@[simp] theorem raiseError_errcode (code : ErrCode) (s : State) : (raiseError code s).errcode = if s.err then s.errcode else code.bits := rfl
@[simp] theorem raiseError_opa (code : ErrCode) (s : State) : (raiseError code s).opa = s.opa := rfl
@[simp] theorem raiseError_opb (code : ErrCode) (s : State) : (raiseError code s).opb = s.opb := rfl
@[simp] theorem raiseError_opc (code : ErrCode) (s : State) : (raiseError code s).opc = s.opc := rfl
@[simp] theorem raiseError_res (code : ErrCode) (s : State) : (raiseError code s).res = s.res := rfl
@[simp] theorem raiseError_scaleX (code : ErrCode) (s : State) : (raiseError code s).scaleX = s.scaleX := rfl
@[simp] theorem raiseError_scaleY (code : ErrCode) (s : State) : (raiseError code s).scaleY = s.scaleY := rfl
@[simp] theorem raiseError_srcBase (code : ErrCode) (s : State) : (raiseError code s).srcBase = s.srcBase := rfl
@[simp] theorem raiseError_srcDim (code : ErrCode) (s : State) : (raiseError code s).srcDim = s.srcDim := rfl
@[simp] theorem raiseError_dstBase (code : ErrCode) (s : State) : (raiseError code s).dstBase = s.dstBase := rfl
@[simp] theorem raiseError_dstDim (code : ErrCode) (s : State) : (raiseError code s).dstDim = s.dstDim := rfl
@[simp] theorem raiseError_faultAddr (code : ErrCode) (s : State) : (raiseError code s).faultAddr = s.faultAddr := rfl
@[simp] theorem raiseError_curRow (code : ErrCode) (s : State) : (raiseError code s).curRow = s.curRow := rfl
@[simp] theorem raiseError_curCol (code : ErrCode) (s : State) : (raiseError code s).curCol = s.curCol := rfl
@[simp] theorem raiseError_mem (code : ErrCode) (s : State) : (raiseError code s).mem = s.mem := rfl
@[simp] theorem raiseError_platform (code : ErrCode) (s : State) : (raiseError code s).platform = s.platform := rfl
@[simp] theorem raiseError_inbox (code : ErrCode) (s : State) : (raiseError code s).inbox = s.inbox := rfl
@[simp] theorem raiseError_response (code : ErrCode) (s : State) : (raiseError code s).response = s.response := rfl

/-! ### `memFail` -/

@[simp] theorem memFail_irqEn (a : Word) (s : State) : (memFail a s).irqEn = s.irqEn := rfl
@[simp] theorem memFail_busy (a : Word) (s : State) : (memFail a s).busy = s.busy := rfl
@[simp] theorem memFail_done (a : Word) (s : State) : (memFail a s).done = s.done := rfl
@[simp] theorem memFail_err (a : Word) (s : State) : (memFail a s).err = true := rfl
@[simp] theorem memFail_errcode (a : Word) (s : State) : (memFail a s).errcode = if s.err then s.errcode else ErrCode.memError.bits := rfl
@[simp] theorem memFail_opa (a : Word) (s : State) : (memFail a s).opa = s.opa := rfl
@[simp] theorem memFail_opb (a : Word) (s : State) : (memFail a s).opb = s.opb := rfl
@[simp] theorem memFail_opc (a : Word) (s : State) : (memFail a s).opc = s.opc := rfl
@[simp] theorem memFail_res (a : Word) (s : State) : (memFail a s).res = s.res := rfl
@[simp] theorem memFail_scaleX (a : Word) (s : State) : (memFail a s).scaleX = s.scaleX := rfl
@[simp] theorem memFail_scaleY (a : Word) (s : State) : (memFail a s).scaleY = s.scaleY := rfl
@[simp] theorem memFail_srcBase (a : Word) (s : State) : (memFail a s).srcBase = s.srcBase := rfl
@[simp] theorem memFail_srcDim (a : Word) (s : State) : (memFail a s).srcDim = s.srcDim := rfl
@[simp] theorem memFail_dstBase (a : Word) (s : State) : (memFail a s).dstBase = s.dstBase := rfl
@[simp] theorem memFail_dstDim (a : Word) (s : State) : (memFail a s).dstDim = s.dstDim := rfl
@[simp] theorem memFail_faultAddr (a : Word) (s : State) : (memFail a s).faultAddr = a := rfl
@[simp] theorem memFail_curRow (a : Word) (s : State) : (memFail a s).curRow = s.curRow := rfl
@[simp] theorem memFail_curCol (a : Word) (s : State) : (memFail a s).curCol = s.curCol := rfl
@[simp] theorem memFail_mem (a : Word) (s : State) : (memFail a s).mem = s.mem := rfl
@[simp] theorem memFail_platform (a : Word) (s : State) : (memFail a s).platform = s.platform := rfl
@[simp] theorem memFail_inbox (a : Word) (s : State) : (memFail a s).inbox = s.inbox := rfl
@[simp] theorem memFail_response (a : Word) (s : State) : (memFail a s).response = s.response := rfl

/-! ### `writeStatus` -/

@[simp] theorem writeStatus_irqEn (v : Word) (s : State) : (writeStatus v s).irqEn = s.irqEn := rfl
@[simp] theorem writeStatus_busy (v : Word) (s : State) : (writeStatus v s).busy = s.busy := rfl
@[simp] theorem writeStatus_done (v : Word) (s : State) : (writeStatus v s).done = (s.done && !v.getLsbD 1) := rfl
@[simp] theorem writeStatus_err (v : Word) (s : State) : (writeStatus v s).err = (s.err && !v.getLsbD 2) := rfl
@[simp] theorem writeStatus_errcode (v : Word) (s : State) : (writeStatus v s).errcode = if v.getLsbD 2 then 0 else s.errcode := rfl
@[simp] theorem writeStatus_opa (v : Word) (s : State) : (writeStatus v s).opa = s.opa := rfl
@[simp] theorem writeStatus_opb (v : Word) (s : State) : (writeStatus v s).opb = s.opb := rfl
@[simp] theorem writeStatus_opc (v : Word) (s : State) : (writeStatus v s).opc = s.opc := rfl
@[simp] theorem writeStatus_res (v : Word) (s : State) : (writeStatus v s).res = s.res := rfl
@[simp] theorem writeStatus_scaleX (v : Word) (s : State) : (writeStatus v s).scaleX = s.scaleX := rfl
@[simp] theorem writeStatus_scaleY (v : Word) (s : State) : (writeStatus v s).scaleY = s.scaleY := rfl
@[simp] theorem writeStatus_srcBase (v : Word) (s : State) : (writeStatus v s).srcBase = s.srcBase := rfl
@[simp] theorem writeStatus_srcDim (v : Word) (s : State) : (writeStatus v s).srcDim = s.srcDim := rfl
@[simp] theorem writeStatus_dstBase (v : Word) (s : State) : (writeStatus v s).dstBase = s.dstBase := rfl
@[simp] theorem writeStatus_dstDim (v : Word) (s : State) : (writeStatus v s).dstDim = s.dstDim := rfl
@[simp] theorem writeStatus_faultAddr (v : Word) (s : State) : (writeStatus v s).faultAddr = s.faultAddr := rfl
@[simp] theorem writeStatus_curRow (v : Word) (s : State) : (writeStatus v s).curRow = s.curRow := rfl
@[simp] theorem writeStatus_curCol (v : Word) (s : State) : (writeStatus v s).curCol = s.curCol := rfl
@[simp] theorem writeStatus_mem (v : Word) (s : State) : (writeStatus v s).mem = s.mem := rfl
@[simp] theorem writeStatus_platform (v : Word) (s : State) : (writeStatus v s).platform = s.platform := rfl
@[simp] theorem writeStatus_inbox (v : Word) (s : State) : (writeStatus v s).inbox = s.inbox := rfl
@[simp] theorem writeStatus_response (v : Word) (s : State) : (writeStatus v s).response = s.response := rfl

/-! ### `startSweep` -/

@[simp] theorem startSweep_irqEn (s : State) : (startSweep s).irqEn = s.irqEn := rfl
@[simp] theorem startSweep_busy (s : State) : (startSweep s).busy = true := rfl
@[simp] theorem startSweep_done (s : State) : (startSweep s).done = false := rfl
@[simp] theorem startSweep_err (s : State) : (startSweep s).err = s.err := rfl
@[simp] theorem startSweep_errcode (s : State) : (startSweep s).errcode = s.errcode := rfl
@[simp] theorem startSweep_opa (s : State) : (startSweep s).opa = s.opa := rfl
@[simp] theorem startSweep_opb (s : State) : (startSweep s).opb = s.opb := rfl
@[simp] theorem startSweep_opc (s : State) : (startSweep s).opc = s.opc := rfl
@[simp] theorem startSweep_res (s : State) : (startSweep s).res = s.res := rfl
@[simp] theorem startSweep_scaleX (s : State) : (startSweep s).scaleX = s.scaleX := rfl
@[simp] theorem startSweep_scaleY (s : State) : (startSweep s).scaleY = s.scaleY := rfl
@[simp] theorem startSweep_srcBase (s : State) : (startSweep s).srcBase = s.srcBase := rfl
@[simp] theorem startSweep_srcDim (s : State) : (startSweep s).srcDim = s.srcDim := rfl
@[simp] theorem startSweep_dstBase (s : State) : (startSweep s).dstBase = s.dstBase := rfl
@[simp] theorem startSweep_dstDim (s : State) : (startSweep s).dstDim = s.dstDim := rfl
@[simp] theorem startSweep_faultAddr (s : State) : (startSweep s).faultAddr = s.faultAddr := rfl
@[simp] theorem startSweep_curRow (s : State) : (startSweep s).curRow = 0 := rfl
@[simp] theorem startSweep_curCol (s : State) : (startSweep s).curCol = 0 := rfl
@[simp] theorem startSweep_mem (s : State) : (startSweep s).mem = s.mem := rfl
@[simp] theorem startSweep_platform (s : State) : (startSweep s).platform = s.platform := rfl
@[simp] theorem startSweep_inbox (s : State) : (startSweep s).inbox = s.inbox := rfl
@[simp] theorem startSweep_response (s : State) : (startSweep s).response = s.response := rfl

/-! ### `finishSweep` -/

@[simp] theorem finishSweep_irqEn (s : State) : (finishSweep s).irqEn = s.irqEn := rfl
@[simp] theorem finishSweep_busy (s : State) : (finishSweep s).busy = false := rfl
@[simp] theorem finishSweep_done (s : State) : (finishSweep s).done = true := rfl
@[simp] theorem finishSweep_err (s : State) : (finishSweep s).err = s.err := rfl
@[simp] theorem finishSweep_errcode (s : State) : (finishSweep s).errcode = s.errcode := rfl
@[simp] theorem finishSweep_opa (s : State) : (finishSweep s).opa = s.opa := rfl
@[simp] theorem finishSweep_opb (s : State) : (finishSweep s).opb = s.opb := rfl
@[simp] theorem finishSweep_opc (s : State) : (finishSweep s).opc = s.opc := rfl
@[simp] theorem finishSweep_res (s : State) : (finishSweep s).res = s.res := rfl
@[simp] theorem finishSweep_scaleX (s : State) : (finishSweep s).scaleX = s.scaleX := rfl
@[simp] theorem finishSweep_scaleY (s : State) : (finishSweep s).scaleY = s.scaleY := rfl
@[simp] theorem finishSweep_srcBase (s : State) : (finishSweep s).srcBase = s.srcBase := rfl
@[simp] theorem finishSweep_srcDim (s : State) : (finishSweep s).srcDim = s.srcDim := rfl
@[simp] theorem finishSweep_dstBase (s : State) : (finishSweep s).dstBase = s.dstBase := rfl
@[simp] theorem finishSweep_dstDim (s : State) : (finishSweep s).dstDim = s.dstDim := rfl
@[simp] theorem finishSweep_faultAddr (s : State) : (finishSweep s).faultAddr = s.faultAddr := rfl
@[simp] theorem finishSweep_curRow (s : State) : (finishSweep s).curRow = s.curRow := rfl
@[simp] theorem finishSweep_curCol (s : State) : (finishSweep s).curCol = s.curCol := rfl
@[simp] theorem finishSweep_mem (s : State) : (finishSweep s).mem = s.mem := rfl
@[simp] theorem finishSweep_platform (s : State) : (finishSweep s).platform = s.platform := rfl
@[simp] theorem finishSweep_inbox (s : State) : (finishSweep s).inbox = s.inbox := rfl
@[simp] theorem finishSweep_response (s : State) : (finishSweep s).response = s.response := rfl

/-! ### `abortSweep` -/

@[simp] theorem abortSweep_irqEn (a : Word) (s : State) : (abortSweep a s).irqEn = s.irqEn := rfl
@[simp] theorem abortSweep_busy (a : Word) (s : State) : (abortSweep a s).busy = false := rfl
@[simp] theorem abortSweep_done (a : Word) (s : State) : (abortSweep a s).done = s.done := rfl
@[simp] theorem abortSweep_err (a : Word) (s : State) : (abortSweep a s).err = true := rfl
@[simp] theorem abortSweep_errcode (a : Word) (s : State) : (abortSweep a s).errcode = if s.err then s.errcode else ErrCode.memError.bits := rfl
@[simp] theorem abortSweep_opa (a : Word) (s : State) : (abortSweep a s).opa = s.opa := rfl
@[simp] theorem abortSweep_opb (a : Word) (s : State) : (abortSweep a s).opb = s.opb := rfl
@[simp] theorem abortSweep_opc (a : Word) (s : State) : (abortSweep a s).opc = s.opc := rfl
@[simp] theorem abortSweep_res (a : Word) (s : State) : (abortSweep a s).res = s.res := rfl
@[simp] theorem abortSweep_scaleX (a : Word) (s : State) : (abortSweep a s).scaleX = s.scaleX := rfl
@[simp] theorem abortSweep_scaleY (a : Word) (s : State) : (abortSweep a s).scaleY = s.scaleY := rfl
@[simp] theorem abortSweep_srcBase (a : Word) (s : State) : (abortSweep a s).srcBase = s.srcBase := rfl
@[simp] theorem abortSweep_srcDim (a : Word) (s : State) : (abortSweep a s).srcDim = s.srcDim := rfl
@[simp] theorem abortSweep_dstBase (a : Word) (s : State) : (abortSweep a s).dstBase = s.dstBase := rfl
@[simp] theorem abortSweep_dstDim (a : Word) (s : State) : (abortSweep a s).dstDim = s.dstDim := rfl
@[simp] theorem abortSweep_faultAddr (a : Word) (s : State) : (abortSweep a s).faultAddr = a := rfl
@[simp] theorem abortSweep_curRow (a : Word) (s : State) : (abortSweep a s).curRow = s.curRow := rfl
@[simp] theorem abortSweep_curCol (a : Word) (s : State) : (abortSweep a s).curCol = s.curCol := rfl
@[simp] theorem abortSweep_mem (a : Word) (s : State) : (abortSweep a s).mem = s.mem := rfl
@[simp] theorem abortSweep_platform (a : Word) (s : State) : (abortSweep a s).platform = s.platform := rfl
@[simp] theorem abortSweep_inbox (a : Word) (s : State) : (abortSweep a s).inbox = s.inbox := rfl
@[simp] theorem abortSweep_response (a : Word) (s : State) : (abortSweep a s).response = s.response := rfl

/-! ### `storeByte` -/

@[simp] theorem storeByte_irqEn (a : Word) (v : Byte) (s : State) : (storeByte a v s).irqEn = s.irqEn := rfl
@[simp] theorem storeByte_busy (a : Word) (v : Byte) (s : State) : (storeByte a v s).busy = s.busy := rfl
@[simp] theorem storeByte_done (a : Word) (v : Byte) (s : State) : (storeByte a v s).done = s.done := rfl
@[simp] theorem storeByte_err (a : Word) (v : Byte) (s : State) : (storeByte a v s).err = s.err := rfl
@[simp] theorem storeByte_errcode (a : Word) (v : Byte) (s : State) : (storeByte a v s).errcode = s.errcode := rfl
@[simp] theorem storeByte_opa (a : Word) (v : Byte) (s : State) : (storeByte a v s).opa = s.opa := rfl
@[simp] theorem storeByte_opb (a : Word) (v : Byte) (s : State) : (storeByte a v s).opb = s.opb := rfl
@[simp] theorem storeByte_opc (a : Word) (v : Byte) (s : State) : (storeByte a v s).opc = s.opc := rfl
@[simp] theorem storeByte_res (a : Word) (v : Byte) (s : State) : (storeByte a v s).res = s.res := rfl
@[simp] theorem storeByte_scaleX (a : Word) (v : Byte) (s : State) : (storeByte a v s).scaleX = s.scaleX := rfl
@[simp] theorem storeByte_scaleY (a : Word) (v : Byte) (s : State) : (storeByte a v s).scaleY = s.scaleY := rfl
@[simp] theorem storeByte_srcBase (a : Word) (v : Byte) (s : State) : (storeByte a v s).srcBase = s.srcBase := rfl
@[simp] theorem storeByte_srcDim (a : Word) (v : Byte) (s : State) : (storeByte a v s).srcDim = s.srcDim := rfl
@[simp] theorem storeByte_dstBase (a : Word) (v : Byte) (s : State) : (storeByte a v s).dstBase = s.dstBase := rfl
@[simp] theorem storeByte_dstDim (a : Word) (v : Byte) (s : State) : (storeByte a v s).dstDim = s.dstDim := rfl
@[simp] theorem storeByte_faultAddr (a : Word) (v : Byte) (s : State) : (storeByte a v s).faultAddr = s.faultAddr := rfl
@[simp] theorem storeByte_curRow (a : Word) (v : Byte) (s : State) : (storeByte a v s).curRow = s.curRow := rfl
@[simp] theorem storeByte_curCol (a : Word) (v : Byte) (s : State) : (storeByte a v s).curCol = s.curCol := rfl
@[simp] theorem storeByte_mem (a : Word) (v : Byte) (s : State) : (storeByte a v s).mem = Memory.write s.mem a.toNat v := rfl
@[simp] theorem storeByte_platform (a : Word) (v : Byte) (s : State) : (storeByte a v s).platform = s.platform := rfl
@[simp] theorem storeByte_inbox (a : Word) (v : Byte) (s : State) : (storeByte a v s).inbox = s.inbox := rfl
@[simp] theorem storeByte_response (a : Word) (v : Byte) (s : State) : (storeByte a v s).response = s.response := rfl

/-! ### `resetBlock` -/

@[simp] theorem resetBlock_irqEn (s : State) : (resetBlock s).irqEn = false := rfl
@[simp] theorem resetBlock_busy (s : State) : (resetBlock s).busy = false := rfl
@[simp] theorem resetBlock_done (s : State) : (resetBlock s).done = false := rfl
@[simp] theorem resetBlock_err (s : State) : (resetBlock s).err = false := rfl
@[simp] theorem resetBlock_errcode (s : State) : (resetBlock s).errcode = 0 := rfl
@[simp] theorem resetBlock_opa (s : State) : (resetBlock s).opa = 0 := rfl
@[simp] theorem resetBlock_opb (s : State) : (resetBlock s).opb = 0 := rfl
@[simp] theorem resetBlock_opc (s : State) : (resetBlock s).opc = 0 := rfl
@[simp] theorem resetBlock_res (s : State) : (resetBlock s).res = 0 := rfl
@[simp] theorem resetBlock_scaleX (s : State) : (resetBlock s).scaleX = 0 := rfl
@[simp] theorem resetBlock_scaleY (s : State) : (resetBlock s).scaleY = 0 := rfl
@[simp] theorem resetBlock_srcBase (s : State) : (resetBlock s).srcBase = 0 := rfl
@[simp] theorem resetBlock_srcDim (s : State) : (resetBlock s).srcDim = 0 := rfl
@[simp] theorem resetBlock_dstBase (s : State) : (resetBlock s).dstBase = 0 := rfl
@[simp] theorem resetBlock_dstDim (s : State) : (resetBlock s).dstDim = 0 := rfl
@[simp] theorem resetBlock_faultAddr (s : State) : (resetBlock s).faultAddr = 0 := rfl
@[simp] theorem resetBlock_curRow (s : State) : (resetBlock s).curRow = 0 := rfl
@[simp] theorem resetBlock_curCol (s : State) : (resetBlock s).curCol = 0 := rfl
@[simp] theorem resetBlock_mem (s : State) : (resetBlock s).mem = s.mem := rfl
@[simp] theorem resetBlock_platform (s : State) : (resetBlock s).platform = s.platform := rfl
@[simp] theorem resetBlock_inbox (s : State) : (resetBlock s).inbox = s.inbox := rfl
@[simp] theorem resetBlock_response (s : State) : (resetBlock s).response = .none := rfl

/-! ### `before` -/

@[simp] theorem before_irqEn (e : Event) (s : State) : (s.before e).irqEn = s.irqEn := rfl
@[simp] theorem before_busy (e : Event) (s : State) : (s.before e).busy = s.busy := rfl
@[simp] theorem before_done (e : Event) (s : State) : (s.before e).done = s.done := rfl
@[simp] theorem before_err (e : Event) (s : State) : (s.before e).err = s.err := rfl
@[simp] theorem before_errcode (e : Event) (s : State) : (s.before e).errcode = s.errcode := rfl
@[simp] theorem before_opa (e : Event) (s : State) : (s.before e).opa = s.opa := rfl
@[simp] theorem before_opb (e : Event) (s : State) : (s.before e).opb = s.opb := rfl
@[simp] theorem before_opc (e : Event) (s : State) : (s.before e).opc = s.opc := rfl
@[simp] theorem before_res (e : Event) (s : State) : (s.before e).res = s.res := rfl
@[simp] theorem before_scaleX (e : Event) (s : State) : (s.before e).scaleX = s.scaleX := rfl
@[simp] theorem before_scaleY (e : Event) (s : State) : (s.before e).scaleY = s.scaleY := rfl
@[simp] theorem before_srcBase (e : Event) (s : State) : (s.before e).srcBase = s.srcBase := rfl
@[simp] theorem before_srcDim (e : Event) (s : State) : (s.before e).srcDim = s.srcDim := rfl
@[simp] theorem before_dstBase (e : Event) (s : State) : (s.before e).dstBase = s.dstBase := rfl
@[simp] theorem before_dstDim (e : Event) (s : State) : (s.before e).dstDim = s.dstDim := rfl
@[simp] theorem before_faultAddr (e : Event) (s : State) : (s.before e).faultAddr = s.faultAddr := rfl
@[simp] theorem before_curRow (e : Event) (s : State) : (s.before e).curRow = s.curRow := rfl
@[simp] theorem before_curCol (e : Event) (s : State) : (s.before e).curCol = s.curCol := rfl
@[simp] theorem before_mem (e : Event) (s : State) : (s.before e).mem = s.mem := rfl
@[simp] theorem before_platform (e : Event) (s : State) : (s.before e).platform = s.platform := rfl
@[simp] theorem before_inbox (e : Event) (s : State) : (s.before e).inbox = e :: s.inbox := rfl
@[simp] theorem before_response (e : Event) (s : State) : (s.before e).response = s.response := rfl

/-! ### `popped` -/

@[simp] theorem popped_irqEn (s : State) : (popped s).irqEn = s.irqEn := rfl
@[simp] theorem popped_busy (s : State) : (popped s).busy = s.busy := rfl
@[simp] theorem popped_done (s : State) : (popped s).done = s.done := rfl
@[simp] theorem popped_err (s : State) : (popped s).err = s.err := rfl
@[simp] theorem popped_errcode (s : State) : (popped s).errcode = s.errcode := rfl
@[simp] theorem popped_opa (s : State) : (popped s).opa = s.opa := rfl
@[simp] theorem popped_opb (s : State) : (popped s).opb = s.opb := rfl
@[simp] theorem popped_opc (s : State) : (popped s).opc = s.opc := rfl
@[simp] theorem popped_res (s : State) : (popped s).res = s.res := rfl
@[simp] theorem popped_scaleX (s : State) : (popped s).scaleX = s.scaleX := rfl
@[simp] theorem popped_scaleY (s : State) : (popped s).scaleY = s.scaleY := rfl
@[simp] theorem popped_srcBase (s : State) : (popped s).srcBase = s.srcBase := rfl
@[simp] theorem popped_srcDim (s : State) : (popped s).srcDim = s.srcDim := rfl
@[simp] theorem popped_dstBase (s : State) : (popped s).dstBase = s.dstBase := rfl
@[simp] theorem popped_dstDim (s : State) : (popped s).dstDim = s.dstDim := rfl
@[simp] theorem popped_faultAddr (s : State) : (popped s).faultAddr = s.faultAddr := rfl
@[simp] theorem popped_curRow (s : State) : (popped s).curRow = s.curRow := rfl
@[simp] theorem popped_curCol (s : State) : (popped s).curCol = s.curCol := rfl
@[simp] theorem popped_mem (s : State) : (popped s).mem = s.mem := rfl
@[simp] theorem popped_platform (s : State) : (popped s).platform = s.platform := rfl
@[simp] theorem popped_inbox (s : State) : (popped s).inbox = s.inbox.tail := rfl
@[simp] theorem popped_response (s : State) : (popped s).response = s.response := rfl

/-! ### `written` -/

@[simp] theorem written_irqEn (s : State) : (written s).irqEn = s.irqEn := rfl
@[simp] theorem written_busy (s : State) : (written s).busy = s.busy := rfl
@[simp] theorem written_done (s : State) : (written s).done = s.done := rfl
@[simp] theorem written_err (s : State) : (written s).err = s.err := rfl
@[simp] theorem written_errcode (s : State) : (written s).errcode = s.errcode := rfl
@[simp] theorem written_opa (s : State) : (written s).opa = s.opa := rfl
@[simp] theorem written_opb (s : State) : (written s).opb = s.opb := rfl
@[simp] theorem written_opc (s : State) : (written s).opc = s.opc := rfl
@[simp] theorem written_res (s : State) : (written s).res = s.res := rfl
@[simp] theorem written_scaleX (s : State) : (written s).scaleX = s.scaleX := rfl
@[simp] theorem written_scaleY (s : State) : (written s).scaleY = s.scaleY := rfl
@[simp] theorem written_srcBase (s : State) : (written s).srcBase = s.srcBase := rfl
@[simp] theorem written_srcDim (s : State) : (written s).srcDim = s.srcDim := rfl
@[simp] theorem written_dstBase (s : State) : (written s).dstBase = s.dstBase := rfl
@[simp] theorem written_dstDim (s : State) : (written s).dstDim = s.dstDim := rfl
@[simp] theorem written_faultAddr (s : State) : (written s).faultAddr = s.faultAddr := rfl
@[simp] theorem written_curRow (s : State) : (written s).curRow = s.curRow := rfl
@[simp] theorem written_curCol (s : State) : (written s).curCol = s.curCol := rfl
@[simp] theorem written_mem (s : State) : (written s).mem = s.mem := rfl
@[simp] theorem written_platform (s : State) : (written s).platform = s.platform := rfl
@[simp] theorem written_inbox (s : State) : (written s).inbox = s.inbox := rfl
@[simp] theorem written_response (s : State) : (written s).response = .taken := rfl

/-! ### `advanceCursor` -/

@[simp] theorem advanceCursor_curRow (s : State) :
    (advanceCursor s).curRow = if s.curCol.toNat + 1 = (dstCols s).toNat then s.curRow + 1 else s.curRow := by
  unfold advanceCursor; split <;> rfl

@[simp] theorem advanceCursor_curCol (s : State) :
    (advanceCursor s).curCol = if s.curCol.toNat + 1 = (dstCols s).toNat then 0 else s.curCol + 1 := by
  unfold advanceCursor; split <;> rfl

@[simp] theorem advanceCursor_irqEn (s : State) : (advanceCursor s).irqEn = s.irqEn := by
  unfold advanceCursor; split <;> rfl

@[simp] theorem advanceCursor_busy (s : State) : (advanceCursor s).busy = s.busy := by
  unfold advanceCursor; split <;> rfl

@[simp] theorem advanceCursor_done (s : State) : (advanceCursor s).done = s.done := by
  unfold advanceCursor; split <;> rfl

@[simp] theorem advanceCursor_err (s : State) : (advanceCursor s).err = s.err := by
  unfold advanceCursor; split <;> rfl

@[simp] theorem advanceCursor_errcode (s : State) : (advanceCursor s).errcode = s.errcode := by
  unfold advanceCursor; split <;> rfl

@[simp] theorem advanceCursor_opa (s : State) : (advanceCursor s).opa = s.opa := by
  unfold advanceCursor; split <;> rfl

@[simp] theorem advanceCursor_opb (s : State) : (advanceCursor s).opb = s.opb := by
  unfold advanceCursor; split <;> rfl

@[simp] theorem advanceCursor_opc (s : State) : (advanceCursor s).opc = s.opc := by
  unfold advanceCursor; split <;> rfl

@[simp] theorem advanceCursor_res (s : State) : (advanceCursor s).res = s.res := by
  unfold advanceCursor; split <;> rfl

@[simp] theorem advanceCursor_scaleX (s : State) : (advanceCursor s).scaleX = s.scaleX := by
  unfold advanceCursor; split <;> rfl

@[simp] theorem advanceCursor_scaleY (s : State) : (advanceCursor s).scaleY = s.scaleY := by
  unfold advanceCursor; split <;> rfl

@[simp] theorem advanceCursor_srcBase (s : State) : (advanceCursor s).srcBase = s.srcBase := by
  unfold advanceCursor; split <;> rfl

@[simp] theorem advanceCursor_srcDim (s : State) : (advanceCursor s).srcDim = s.srcDim := by
  unfold advanceCursor; split <;> rfl

@[simp] theorem advanceCursor_dstBase (s : State) : (advanceCursor s).dstBase = s.dstBase := by
  unfold advanceCursor; split <;> rfl

@[simp] theorem advanceCursor_dstDim (s : State) : (advanceCursor s).dstDim = s.dstDim := by
  unfold advanceCursor; split <;> rfl

@[simp] theorem advanceCursor_faultAddr (s : State) : (advanceCursor s).faultAddr = s.faultAddr := by
  unfold advanceCursor; split <;> rfl

@[simp] theorem advanceCursor_mem (s : State) : (advanceCursor s).mem = s.mem := by
  unfold advanceCursor; split <;> rfl

@[simp] theorem advanceCursor_platform (s : State) : (advanceCursor s).platform = s.platform := by
  unfold advanceCursor; split <;> rfl

@[simp] theorem advanceCursor_inbox (s : State) : (advanceCursor s).inbox = s.inbox := by
  unfold advanceCursor; split <;> rfl

@[simp] theorem advanceCursor_response (s : State) : (advanceCursor s).response = s.response := by
  unfold advanceCursor; split <;> rfl

/-- The cursor's move is an update of the cursor alone. -/
theorem advanceCursor_eq (s : State) :
    advanceCursor s = { s with curRow := (advanceCursor s).curRow, curCol := (advanceCursor s).curCol } := by
  unfold advanceCursor; split <;> rfl

end Sys2Proof.Machine
end

