-- ==== Sys2Proof/Laws/Resampler.lean ====
section
/-! SUPPORT. What `gather` and `pixel` answer, what they depend on, and everything the meanings of the commands can
do. -/

namespace Sys2Proof.Machine

/-- The four bytes at four addresses. -/
def bytesAt (s : State) (q : Quad Word) : Quad Byte :=
  { a := byteAt s q.a, b := byteAt s q.b, c := byteAt s q.c, d := byteAt s q.d }

/-- The first of four addresses that the platform refuses to read, in the order A, B, C, D. -/
def firstRefused (p : Platform) (q : Quad Word) : Option Word :=
  [q.a, q.b, q.c, q.d].find? fun a => !memOK p a .read

/-- `gather` by the first refused read (R144). -/
theorem gather_eq (s : State) (k : Coords) :
    gather s k = match firstRefused s.platform (gatherAddrs s k) with
      | some a => .error a
      | none => .ok (bytesAt s (gatherAddrs s k)) := by
  unfold gather firstRefused bytesAt memRead
  generalize gatherAddrs s k = q
  simp only [List.find?]
  cases memOK s.platform q.a .read <;> cases memOK s.platform q.b .read <;> cases memOK s.platform q.c .read <;>
    cases memOK s.platform q.d .read <;> rfl

/-- The sample of the four bytes a pixel reads. -/
def sampleAt (s : State) (row col : Half) : Byte :=
  let k := pixelCoords s row col
  extract (blendQuad k.factX k.factY (bytesAt s (gatherAddrs s k)))

/-- `pixel` by the first refused read (R148). -/
theorem pixel_eq (s : State) (row col : Half) :
    pixel s row col = match firstRefused s.platform (gatherAddrs s (pixelCoords s row col)) with
      | some a => .error a
      | none => .ok (sampleAt s row col) := by
  unfold pixel sampleAt
  simp only [gather_eq]
  generalize firstRefused s.platform (gatherAddrs s (pixelCoords s row col)) = o
  cases o <;> rfl

theorem firstRefused_some {p : Platform} {q : Quad Word} {a : Word} (h : firstRefused p q = some a) :
    memOK p a .read = false := by
  simpa using List.find?_some h

theorem firstRefused_none {p : Platform} {q : Quad Word} :
    firstRefused p q = none ↔ memOK p q.a .read = true ∧ memOK p q.b .read = true ∧ memOK p q.c .read = true ∧
      memOK p q.d .read = true := by
  simp [firstRefused, List.find?_eq_none]

/-- A pixel that ends by MEMFAIL ends at an address the platform refuses to read. -/
theorem pixel_error {s : State} {row col : Half} {a : Word} (h : pixel s row col = .error a) :
    memOK s.platform a .read = false := by
  rw [pixel_eq] at h
  split at h
  · next b hb => cases h; exact firstRefused_some hb
  · cases h

/-! ### The domain -/

theorem sourceOutOfDomain_eq_false {s : State} :
    sourceOutOfDomain s = false ↔ srcRows s ≠ 0 ∧ srcCols s ≠ 0 ∧ s.scaleX ≠ 0 ∧ s.scaleY ≠ 0 := by
  simp only [sourceOutOfDomain, Bool.or_eq_false_iff, beq_eq_false_iff_ne, and_assoc, ne_eq]

theorem sourceOutOfDomain_eq_true {s : State} :
    sourceOutOfDomain s = true ↔ srcRows s = 0 ∨ srcCols s = 0 ∨ s.scaleX = 0 ∨ s.scaleY = 0 := by
  simp only [sourceOutOfDomain, Bool.or_eq_true, beq_iff_eq, or_assoc]

theorem coordsOutOfDomain_eq_true {s : State} :
    coordsOutOfDomain s = true ↔ 0xFFFF < s.opa.toNat ∨ 0xFFFF < s.opb.toNat := by
  simp only [coordsOutOfDomain, Bool.or_eq_true, decide_eq_true_eq]
  exact Iff.rfl

theorem coordsOutOfDomain_eq_false {s : State} :
    coordsOutOfDomain s = false ↔ s.opa.toNat ≤ 0xFFFF ∧ s.opb.toNat ≤ 0xFFFF := by
  rw [← Bool.not_eq_true, coordsOutOfDomain_eq_true]
  omega

/-! ### What a pixel depends on -/

/-- Every index a pixel of a nonempty source looks up is inside it (R149 law 4). -/
theorem pixelCoords_inside {s : State} (hr : srcRows s ≠ 0) (hc : srcCols s ≠ 0) (row col : Half) :
    gridIndex (pixelCoords s row col).iY < srcRows s ∧ gridIndex (pixelCoords s row col).iYN < srcRows s ∧
    gridIndex (pixelCoords s row col).iX < srcCols s ∧ gridIndex (pixelCoords s row col).iXN < srcCols s := by
  simp only [pixelCoords, rowLimit, colLimit]
  exact ⟨gridIndex_clamp_lt hr _, gridIndex_clamp_lt hr _, gridIndex_clamp_lt hc _, gridIndex_clamp_lt hc _⟩

/-- The indices of the four neighbors of a cell, on exact naturals (R141 to R144). -/
theorem pixelCoords_index {s : State} (hr : srcRows s ≠ 0) (hc : srcCols s ≠ 0) (row col : Half) :
    (gridIndex (pixelCoords s row col).iY).toNat = min ((projectY s row).toNat / 65536) ((srcRows s).toNat - 1) ∧
    (gridIndex (pixelCoords s row col).iYN).toNat =
      min (((projectY s row).toNat / 65536 + 1) % 65536) ((srcRows s).toNat - 1) ∧
    (gridIndex (pixelCoords s row col).iX).toNat = min ((projectX s col).toNat / 65536) ((srcCols s).toNat - 1) ∧
    (gridIndex (pixelCoords s row col).iXN).toNat =
      min (((projectX s col).toNat / 65536 + 1) % 65536) ((srcCols s).toNat - 1) := by
  simp only [pixelCoords, rowLimit, colLimit]
  rw [gridIndex_clamp_toNat hr, gridIndex_clamp_toNat hr, gridIndex_clamp_toNat hc, gridIndex_clamp_toNat hc,
    splitBase_index, splitNext_index, splitBase_index, splitNext_index]
  exact ⟨rfl, rfl, rfl, rfl⟩

/-- The weights of a cell are the fractions of its projections (R141, R142). -/
theorem pixelCoords_weights (s : State) (row col : Half) :
    (pixelCoords s row col).factX.toNat = (projectX s col).toNat % 65536 ∧
    (pixelCoords s row col).factY.toNat = (projectY s row).toNat % 65536 :=
  ⟨and_lowerMask_toNat _, and_lowerMask_toNat _⟩

/-- The sample of four bytes on exact naturals: blended horizontally, then vertically, with the truncations of the
vertical blend and of the extraction (R145 to R147, R149). -/
theorem extract_blendQuad_toNat {fx fy : Word} (hx : fx.toNat ≤ 0xFFFF) (hy : fy.toNat ≤ 0xFFFF) (q : Quad Byte) :
    (extract (blendQuad fx fy q)).toNat =
      ((65536 - fy.toNat) * ((65536 - fx.toNat) * q.a.toNat + fx.toNat * q.b.toNat) / 65536 +
        fy.toNat * ((65536 - fx.toNat) * q.c.toNat + fx.toNat * q.d.toNat) / 65536) / 65536 := by
  have byteMax (a b : Byte) : max a.toNat b.toNat * 65536 ≤ 255 * 65536 :=
    Nat.mul_le_mul_right _ (max_le (Nat.le_of_lt_succ a.isLt) (Nat.le_of_lt_succ b.isLt))
  have h := blend_toNat_of_le (m := 255 * 65536) hy (p := hblendTop fx q) (q := hblendBottom fx q)
    ((blend_bytes_between hx q.a q.b).2.trans (byteMax _ _)) ((blend_bytes_between hx q.c q.d).2.trans (byteMax _ _))
    (by norm_num)
  have small : (blendQuad fx fy q).toNat ≤ 255 * 65536 := h.2
  rw [extract_toNat, Nat.mod_eq_of_lt (by omega)]
  unfold blendQuad vblend
  rw [h.1, hblendTop, hblendBottom, blend_bytes_toNat hx, blend_bytes_toNat hx]

/-- Every address a pixel of a nonempty source reads is in the source region (R149 law 4). -/
theorem gatherAddrs_inSource {s : State} (hr : srcRows s ≠ 0) (hc : srcCols s ≠ 0) (row col : Half) :
    inSource s (gatherAddrs s (pixelCoords s row col)).a = true ∧
    inSource s (gatherAddrs s (pixelCoords s row col)).b = true ∧
    inSource s (gatherAddrs s (pixelCoords s row col)).c = true ∧
    inSource s (gatherAddrs s (pixelCoords s row col)).d = true := by
  obtain ⟨h1, h2, h3, h4⟩ := pixelCoords_inside hr hc row col
  simp only [gatherAddrs]
  exact ⟨inSource_srcAddr h1 h3, inSource_srcAddr h1 h4, inSource_srcAddr h2 h3, inSource_srcAddr h2 h4⟩

theorem pixelCoords_congr {s t : State} (h : sameConfig s t) (row col : Half) :
    pixelCoords t row col = pixelCoords s row col := by
  obtain ⟨h1, h2, -, h4, -, -, -⟩ := h
  simp only [pixelCoords, projectX, projectY, colLimit, rowLimit, srcCols, srcRows, h1, h2, h4]

theorem gatherAddrs_congr {s t : State} (h : sameConfig s t) (k : Coords) : gatherAddrs t k = gatherAddrs s k := by
  obtain ⟨-, -, h3, h4, -, -, -⟩ := h
  simp only [gatherAddrs, srcAddr, srcCols, h3, h4]

/-- A pixel depends only on the configuration, the platform and the bytes of the source region (R148). -/
theorem pixel_congr {s t : State} (h : sameConfig s t) (hs : sameSource s t)
    (hd : sourceOutOfDomain s = false) (row col : Half) : pixel t row col = pixel s row col := by
  obtain ⟨hr, hc, -, -⟩ := sourceOutOfDomain_eq_false.1 hd
  obtain ⟨ha, hb, hcc, hdd⟩ := gatherAddrs_inSource hr hc row col
  have hp : t.platform = s.platform := h.2.2.2.2.2.2
  have hbytes : bytesAt t (gatherAddrs s (pixelCoords s row col))
      = bytesAt s (gatherAddrs s (pixelCoords s row col)) := by
    simp only [bytesAt, hs _ ha, hs _ hb, hs _ hcc, hs _ hdd]
  rw [pixel_eq, pixel_eq, hp, pixelCoords_congr h, gatherAddrs_congr h]
  simp only [sampleAt, pixelCoords_congr h, gatherAddrs_congr h, hbytes]

/-- Where every read of the source region is admitted, a pixel of a nonempty source is its sample. -/
theorem pixel_of_admitted {s : State} (hr : srcRows s ≠ 0) (hc : srcCols s ≠ 0)
    (h : ∀ a, inSource s a = true → memOK s.platform a .read = true) (row col : Half) :
    pixel s row col = .ok (sampleAt s row col) := by
  obtain ⟨ha, hb, hcc, hdd⟩ := gatherAddrs_inSource hr hc row col
  rw [pixel_eq, firstRefused_none.2 ⟨h _ ha, h _ hb, h _ hcc, h _ hdd⟩]

/-! ### Everything a command can do -/

/-- PIXEL: DOMAIN, or MEM_ERROR at a refused address, or its sample in RES. -/
theorem execPixel_cases (s : State) :
    ((sourceOutOfDomain s = true ∨ coordsOutOfDomain s = true) ∧ execPixel s = .next (raiseError .domain s)) ∨
    (sourceOutOfDomain s = false ∧ coordsOutOfDomain s = false ∧
      ((∃ a, pixel s (pixelRow s) (pixelCol s) = .error a ∧ execPixel s = .next (memFail a s)) ∨
       ∃ v, pixel s (pixelRow s) (pixelCol s) = .ok v ∧ execPixel s = .next { s with res := v.setWidth 32 })) := by
  unfold execPixel
  split
  · next h => exact .inl ⟨by simpa using h, rfl⟩
  · next h =>
    have h' : sourceOutOfDomain s = false ∧ coordsOutOfDomain s = false := by simpa using h
    refine .inr ⟨h'.1, h'.2, ?_⟩
    split
    · next a ha => exact .inl ⟨a, ha, rfl⟩
    · next v hv => exact .inr ⟨v, hv, rfl⟩

/-- RESAMPLE: DOMAIN, or the sweep starts. -/
theorem execResample_cases (s : State) :
    (sourceOutOfDomain s = true ∧ execResample s = .next (raiseError .domain s)) ∨
    (sourceOutOfDomain s = false ∧ execResample s = .next (startSweep s)) := by
  unfold execResample
  cases h : sourceOutOfDomain s
  · exact .inr ⟨rfl, rfl⟩
  · exact .inl ⟨rfl, rfl⟩

/-- The states a command can lead to. -/
inductive CommandResult (s : State) : Instr → State → Prop
  | nop : CommandResult s .nop s
  | mul : CommandResult s .mul { s with res := fxmul s.opa s.opb }
  | tofix : CommandResult s .tofix { s with res := tofix s.opa }
  | lerp : CommandResult s .lerp { s with res := blend (lerpWeight s) s.opa s.opb }
  | pixelDomain (h : sourceOutOfDomain s = true ∨ coordsOutOfDomain s = true) :
      CommandResult s .pixel (raiseError .domain s)
  | pixelRefused (a : Word) (h : pixel s (pixelRow s) (pixelCol s) = .error a) :
      CommandResult s .pixel (memFail a s)
  | pixelSample (v : Byte) (h : pixel s (pixelRow s) (pixelCol s) = .ok v) :
      CommandResult s .pixel { s with res := v.setWidth 32 }
  | resampleDomain (h : sourceOutOfDomain s = true) : CommandResult s .resample (raiseError .domain s)
  | resampleStarts (h : sourceOutOfDomain s = false) : CommandResult s .resample (startSweep s)

/-- Every command answers a next state, and one of the above. -/
theorem exec_cases (i : Instr) (s : State) : ∃ t, exec i s = .next t ∧ CommandResult s i t := by
  cases i with
  | nop => exact ⟨_, rfl, .nop⟩
  | mul => exact ⟨_, rfl, .mul⟩
  | tofix => exact ⟨_, rfl, .tofix⟩
  | lerp => exact ⟨_, rfl, .lerp⟩
  | pixel =>
    obtain ⟨h, e⟩ | ⟨-, -, ⟨a, h, e⟩ | ⟨v, h, e⟩⟩ := execPixel_cases s
    · exact ⟨_, e, .pixelDomain h⟩
    · exact ⟨_, e, .pixelRefused a h⟩
    · exact ⟨_, e, .pixelSample v h⟩
  | resample =>
    obtain ⟨h, e⟩ | ⟨h, e⟩ := execResample_cases s
    · exact ⟨_, e, .resampleDomain h⟩
    · exact ⟨_, e, .resampleStarts h⟩

end Sys2Proof.Machine
end

