-- ==== Sys2Proof/Laws/Engine.lean ====
section
/-! SUPPORT. Everything an engine's turn can do. -/

namespace Sys2Proof.Machine

theorem finishEnabled_iff {s : State} :
    finishEnabled s = true ↔ s.busy = true ∧ (s.curRow = dstRows s ∨ dstCols s = 0) := by
  simp only [finishEnabled, Bool.and_eq_true, Bool.or_eq_true, beq_iff_eq]

theorem pixelEnabled_iff {s : State} :
    pixelEnabled s = true ↔ s.busy = true ∧ s.curRow < dstRows s ∧ dstCols s > 0 := by
  simp only [pixelEnabled, Bool.and_eq_true, decide_eq_true_eq, and_assoc]

/-- The two engine steps are never enabled together (R154, R155). -/
theorem not_both_enabled {s : State} (h : pixelEnabled s = true) : finishEnabled s = false := by
  obtain ⟨-, hr, hc⟩ := pixelEnabled_iff.1 h
  rw [← Bool.not_eq_true, finishEnabled_iff]
  rintro ⟨-, e | e⟩
  · exact BitVec.lt_irrefl _ (e ▸ hr)
  · exact BitVec.lt_irrefl _ (e ▸ hc)

/-- The states an engine's turn can lead to. -/
inductive EngineResult (s : State) : State → Prop
  | idle (h1 : finishEnabled s = false) (h2 : pixelEnabled s = false) : EngineResult s s
  | finish (h : finishEnabled s = true) : EngineResult s (finishSweep s)
  | readRefused (h : pixelEnabled s = true) (a : Word) (hp : pixel s s.curRow s.curCol = .error a) :
      EngineResult s (abortSweep a s)
  | writeRefused (h : pixelEnabled s = true) (v : Byte) (hp : pixel s s.curRow s.curCol = .ok v)
      (hw : memOK s.platform (dstAddr s s.curRow s.curCol) .write = false) :
      EngineResult s (abortSweep (dstAddr s s.curRow s.curCol) s)
  | cell (h : pixelEnabled s = true) (v : Byte) (hp : pixel s s.curRow s.curCol = .ok v)
      (hw : memOK s.platform (dstAddr s s.curRow s.curCol) .write = true) :
      EngineResult s (advanceCursor (storeByte (dstAddr s s.curRow s.curCol) v s))

theorem engineTurn_of_finish {s : State} (h : finishEnabled s = true) : engineTurn s = finishSweep s := by
  rw [engineTurn, if_pos h]

theorem engineTurn_of_pixel {s : State} (h : pixelEnabled s = true) : engineTurn s = pixelStep s := by
  rw [engineTurn, if_neg (by simp [not_both_enabled h]), if_pos h]

theorem pixelStep_of_error {s : State} {a : Word} (h : pixel s s.curRow s.curCol = .error a) :
    pixelStep s = abortSweep a s := by
  rw [pixelStep, h]

theorem pixelStep_of_refused {s : State} {v : Byte} (h : pixel s s.curRow s.curCol = .ok v)
    (hw : memOK s.platform (dstAddr s s.curRow s.curCol) .write = false) :
    pixelStep s = abortSweep (dstAddr s s.curRow s.curCol) s := by
  rw [pixelStep, h]; simp [memWrite, hw]

theorem pixelStep_of_ok {s : State} {v : Byte} (h : pixel s s.curRow s.curCol = .ok v)
    (hw : memOK s.platform (dstAddr s s.curRow s.curCol) .write = true) :
    pixelStep s = advanceCursor (storeByte (dstAddr s s.curRow s.curCol) v s) := by
  rw [pixelStep, h]; simp [memWrite, hw]

theorem engineTurn_cases (s : State) : EngineResult s (engineTurn s) := by
  cases hf : finishEnabled s with
  | true => exact engineTurn_of_finish hf ▸ .finish hf
  | false =>
    cases hp : pixelEnabled s with
    | false => rw [engineTurn, hf, hp]; exact .idle hf hp
    | true =>
      rw [engineTurn_of_pixel hp]
      cases h : pixel s s.curRow s.curCol with
      | error a => exact pixelStep_of_error h ▸ .readRefused hp a h
      | ok v =>
        cases hw : memOK s.platform (dstAddr s s.curRow s.curCol) .write with
        | false => exact pixelStep_of_refused h hw ▸ .writeRefused hp v h hw
        | true => exact pixelStep_of_ok h hw ▸ .cell hp v h hw

end Sys2Proof.Machine
end

