-- ==== Sys2Proof/Laws/PerInstr.lean ====
section
/-! SUPPORT. The per-instruction family `RoundTrip`: every command is well formed, its word has RSVD = 0, and decoding
its word gives it back (spec/30_encoding.md R90 to R92). -/

namespace Sys2Proof.Laws.RoundTrip

/-- What `RoundTrip` says of a command. -/
def Statement (i : Instr) : Prop :=
  i.wf = true ∧ rsvdField (encode i) = 0 ∧ opcodeField (encode i) = opcodeOf i ∧ decode (encode i) = .cmd i

theorem nop : Statement .nop := ⟨rfl, by decide, rfl, by decide⟩

theorem mul : Statement .mul := ⟨rfl, by decide, rfl, by decide⟩

theorem tofix : Statement .tofix := ⟨rfl, by decide, rfl, by decide⟩

theorem lerp : Statement .lerp := ⟨rfl, by decide, rfl, by decide⟩

theorem pixel : Statement .pixel := ⟨rfl, by decide, rfl, by decide⟩

theorem resample : Statement .resample := ⟨rfl, by decide, rfl, by decide⟩

end Sys2Proof.Laws.RoundTrip
end

