-- ==== Sys2Proof/Laws/Port.lean ====
section
/-! SUPPORT. The register port, and everything a step can do. -/

namespace Sys2Proof.Machine

/-! ### The register map -/

theorem regAtOffset_regOffset (r : Reg) : regAtOffset (regOffset r) = some r := by cases r <;> rfl

theorem regOffset_of_regAtOffset {off : Nat} {r : Reg} (h : regAtOffset off = some r) : off = regOffset r := by
  unfold regAtOffset at h
  split at h <;> first | (cases h; rfl) | cases h

theorem regOffset_lt (r : Reg) : regOffset r < Config.windowBytes := by cases r <;> decide

theorem regOffset_aligned (r : Reg) : regOffset r % 4 = 0 := by cases r <;> rfl

theorem inWindow_add {s : State} {off : Nat} (h : off < Config.windowBytes) :
    inWindow s (s.platform.regBase + off) = true := by
  simp only [inWindow, Bool.and_eq_true, decide_eq_true_eq]
  omega

theorem windowOffset_add (s : State) (off : Nat) : windowOffset s (s.platform.regBase + off) = off := by
  simp [windowOffset]

/-! ### Accesses that the port takes -/

theorem portAccess_write {s : State} {off : Nat} (h : off < Config.windowBytes) (ha : off % 4 = 0) (v : Word) :
    portAccess (.write (s.platform.regBase + off) .w32 v) s = writeOffset off v (written s) := by
  simp only [portAccess, PortAccess.addr, PortAccess.width, portTakes, inWindow_add h, windowOffset_add, ha,
    written]
  rfl

theorem portAccess_read {s : State} {off : Nat} (h : off < Config.windowBytes) (ha : off % 4 = 0) :
    portAccess (.read (s.platform.regBase + off) .w32) s =
      .next { s with response := .data (readOffset s off) } := by
  simp only [portAccess, PortAccess.addr, PortAccess.width, portTakes, inWindow_add h, windowOffset_add, ha]
  rfl

theorem portAccess_writeReg (s : State) (r : Reg) (v : Word) :
    portAccess (.write (s.platform.regBase + regOffset r) .w32 v) s = writeReg r v (written s) := by
  rw [portAccess_write (regOffset_lt r) (regOffset_aligned r), writeOffset, regAtOffset_regOffset]

theorem portAccess_readReg (s : State) (r : Reg) :
    portAccess (.read (s.platform.regBase + regOffset r) .w32) s =
      .next { s with response := .data (readReg s r) } := by
  rw [portAccess_read (regOffset_lt r) (regOffset_aligned r), readOffset, regAtOffset_regOffset]

/-! ### One step by its entry -/

@[simp] theorem popped_finishEnabled (s : State) : finishEnabled (popped s) = finishEnabled s := rfl

@[simp] theorem popped_pixelEnabled (s : State) : pixelEnabled (popped s) = pixelEnabled s := rfl

@[simp] theorem popped_pixel (s : State) (row col : Half) : pixel (popped s) row col = pixel s row col := rfl

@[simp] theorem popped_dstAddr (s : State) (r c : Half) : dstAddr (popped s) r c = dstAddr s r c := rfl

@[simp] theorem popped_byteAt (s : State) (a : Word) : byteAt (popped s) a = byteAt s a := rfl

theorem step_of_head {s : State} {e : Event} (h : s.inbox.head? = some e) : step s = takeEvent e (popped s) := by
  unfold step nextStep popped
  cases hs : s.inbox with
  | nil => rw [hs] at h; cases h
  | cons d rest => rw [hs] at h; cases h; rfl

theorem step_of_engine {s : State} (h : nextIsEngine s) : step s = .next (engineTurn (popped s)) := by
  obtain h | h := h
  · have hs : s.inbox = [] := List.head?_eq_none_iff.1 h
    cases s
    subst hs
    rfl
  · rw [step_of_head h]; rfl

theorem step_of_write {s : State} {r : Reg} {v : Word} (h : nextIsWrite s r v) :
    step s = writeReg r v (written (popped s)) := by
  rw [step_of_head h]
  exact portAccess_writeReg (popped s) r v

theorem step_of_freeWrite {s : State} {r : Reg} {v : Word} (h : nextIsWrite s r v)
    (hf : s.busy = false ∨ regLocked r = false) : step s = writeRegFree r v (written (popped s)) := by
  rw [step_of_write h, writeReg, if_neg]
  obtain h | h := hf <;> simp [h]

theorem step_of_read {s : State} {r : Reg} (h : s.inbox.head? = some (readEvent s r)) :
    step s = .next { popped s with response := .data (readReg s r) } := by
  rw [step_of_head h]
  exact portAccess_readReg (popped s) r

theorem pollIdle_of_idle {s : State} (h : s.busy = false) :
    pollIdle s = { s with response := .data (statusWord s) } := by
  rw [pollIdle, statusWord_bit0, h]; rfl

theorem pollIdle_of_busy {s : State} (h : s.busy = true) :
    pollIdle s = { s with response := .data (statusWord s), inbox := .engine :: .waitIdle :: s.inbox } := by
  rw [pollIdle, statusWord_bit0, h]; rfl

/-! ### Everything a step can do -/

/-- What a step did: who moved, and how the state it leads to comes from the one it started in. Every step that
answers a next state is one of these (`step_cases`). -/
inductive StepKind (s : State) : State → Prop
  | engine (h : nextIsEngine s) (t : State) (ht : EngineResult (popped s) t) : StepKind s t
  | reset (h : nextIsReset s) : StepKind s (resetBlock (popped s))
  | respond (he : ¬nextIsReset s) (p : Response) : StepKind s { popped s with response := p }
  | poll (h : s.inbox.head? = some .waitIdle) (hb : s.busy = true) :
      StepKind s { s with response := .data (statusWord s), inbox := .engine :: s.inbox }
  | gridWrite (a : Word) (v : Byte) (h : s.inbox.head? = some (.gridWrite a v))
      (hd : s.busy = false ∨ (inSource s a = false ∧ inDest s a = false)) :
      StepKind s { storeByte a v (popped s) with response := .taken }
  | busyWrite (r : Reg) (v : Word) (h : nextIsWrite s r v) (hb : s.busy = true) (hl : regLocked r = true) :
      StepKind s (raiseError .busyWrite (written (popped s)))
  | ctrl (v : Word) (h : nextIsWrite s .ctrl v) : StepKind s { written (popped s) with irqEn := v.getLsbD 0 }
  | status (v : Word) (h : nextIsWrite s .status v) : StepKind s (writeStatus v (written (popped s)))
  | opa (v : Word) (h : nextIsWrite s .opa v) : StepKind s { written (popped s) with opa := v }
  | opb (v : Word) (h : nextIsWrite s .opb v) : StepKind s { written (popped s) with opb := v }
  | opc (v : Word) (h : nextIsWrite s .opc v) : StepKind s { written (popped s) with opc := v }
  | scaleX (v : Word) (h : nextIsWrite s .scaleX v) (hb : s.busy = false) :
      StepKind s { written (popped s) with scaleX := v }
  | scaleY (v : Word) (h : nextIsWrite s .scaleY v) (hb : s.busy = false) :
      StepKind s { written (popped s) with scaleY := v }
  | srcBase (v : Word) (h : nextIsWrite s .srcBase v) (hb : s.busy = false) :
      StepKind s { written (popped s) with srcBase := v }
  | srcDim (v : Word) (h : nextIsWrite s .srcDim v) (hb : s.busy = false) :
      StepKind s { written (popped s) with srcDim := v }
  | dstBase (v : Word) (h : nextIsWrite s .dstBase v) (hb : s.busy = false) :
      StepKind s { written (popped s) with dstBase := v }
  | dstDim (v : Word) (h : nextIsWrite s .dstDim v) (hb : s.busy = false) :
      StepKind s { written (popped s) with dstDim := v }
  | illegal (v : Word) (h : nextIsWrite s .cmd v) (hb : s.busy = false) (why : Illegal)
      (hd : decode v = .illegal why) : StepKind s (raiseError .illegalCmd (written (popped s)))
  | command (i : Instr) (h : nextIsCommand s i) (t : State) (ht : CommandResult (written (popped s)) i t) :
      StepKind s t

/-- A write that is not rejected, by its register. -/
theorem writeRegFree_cases {s t : State} {r : Reg} {v : Word} (h : nextIsWrite s r v)
    (hf : s.busy = false ∨ regLocked r = false) (ht : writeRegFree r v (written (popped s)) = .next t) :
    StepKind s t := by
  have hreset : ¬nextIsReset s := by rw [nextIsReset, h]; simp [writeEvent]
  have busy : regLocked r = true → s.busy = false := fun hl => by simpa [hl] using hf
  cases r <;> simp only [writeRegFree, Host.Outcome.next.injEq] at ht
  case cmd =>
    unfold issueCommand at ht
    split at ht
    · next i hd =>
      obtain ⟨u, e, hu⟩ := exec_cases i (written (popped s))
      rw [e] at ht; cases ht
      exact .command i ⟨eq_encode_of_decode hd ▸ h, busy rfl⟩ _ hu
    · next why hd => cases ht; exact .illegal v h (busy rfl) why hd
  all_goals subst ht
  case ctrl => exact .ctrl v h
  case status => exact .status v h
  case opa => exact .opa v h
  case opb => exact .opb v h
  case opc => exact .opc v h
  case res => exact .respond hreset .taken
  case faultAddr => exact .respond hreset .taken
  case scaleX => exact .scaleX v h (busy rfl)
  case scaleY => exact .scaleY v h (busy rfl)
  case srcBase => exact .srcBase v h (busy rfl)
  case srcDim => exact .srcDim v h (busy rfl)
  case dstBase => exact .dstBase v h (busy rfl)
  case dstDim => exact .dstDim v h (busy rfl)

theorem portAccess_cases {s t : State} {acc : PortAccess} (h : s.inbox.head? = some (.port acc))
    (ht : portAccess acc (popped s) = .next t) : StepKind s t := by
  have hreset : ¬nextIsReset s := by rw [nextIsReset, h]; simp
  unfold portAccess at ht
  split at ht
  · cases ht; exact .respond hreset .none
  · next hw =>
    split at ht
    · cases ht; exact .respond hreset .busError
    · next hp =>
      cases acc with
      | read a w => cases ht; exact .respond hreset _
      | write a w v =>
        have hwin : s.platform.regBase ≤ a := by
          have : inWindow (popped s) a = true := by simpa [PortAccess.addr] using hw
          simp only [inWindow, Bool.and_eq_true, decide_eq_true_eq] at this
          exact this.1
        have hp' : w = .w32 := by
          have : portTakes (popped s) (.write a w v) = true := by simpa using hp
          simp only [portTakes, PortAccess.width, Bool.and_eq_true, beq_iff_eq] at this
          exact this.1
        subst hp'
        simp only [writeOffset] at ht
        split at ht
        · next r hr =>
          have hoff := regOffset_of_regAtOffset hr
          simp only [windowOffset, popped_platform] at hoff
          have hn : nextIsWrite s r v := by
            rw [nextIsWrite, h, writeEvent, ← hoff, Nat.add_sub_cancel' hwin]
          change writeReg r v (written (popped s)) = .next t at ht
          unfold writeReg at ht
          split at ht
          · next hb =>
            cases ht
            rw [Bool.and_eq_true] at hb
            exact .busyWrite r v hn hb.1 hb.2
          · next hb =>
            refine writeRegFree_cases hn ?_ ht
            have : ¬(s.busy = true ∧ regLocked r = true) := by simpa using hb
            cases hb1 : s.busy
            · exact .inl rfl
            · exact .inr (by simpa [hb1] using this)
        · cases ht; exact .respond hreset .taken

/-- Everything a step can do (R201, R229). -/
theorem step_cases {s t : State} (ht : step s = .next t) : StepKind s t := by
  cases he : s.inbox.head? with
  | none =>
    rw [step_of_engine (.inl he)] at ht
    cases ht
    exact .engine (.inl he) _ (engineTurn_cases _)
  | some e =>
    have hs := step_of_head he
    rw [hs] at ht
    cases e with
    | port acc => exact portAccess_cases he ht
    | waitIdle =>
      have hreset : ¬nextIsReset s := by rw [nextIsReset, he]; simp
      simp only [takeEvent, Host.Outcome.next.injEq] at ht
      subst ht
      cases hb : s.busy with
      | false => rw [pollIdle_of_idle (s := popped s) hb]; exact .respond hreset _
      | true =>
        have hcons : s.inbox = .waitIdle :: (popped s).inbox := by
          cases hi : s.inbox with
          | nil => rw [hi] at he; cases he
          | cons d rest => rw [hi] at he; cases he; simp [hi]
        have := StepKind.poll he hb
        rw [hcons] at this
        rw [pollIdle_of_busy (s := popped s) hb]
        exact this
    | engine => cases ht; exact .engine (.inr he) _ (engineTurn_cases _)
    | reset => cases ht; exact .reset he
    | gridRead a =>
      have hreset : ¬nextIsReset s := by rw [nextIsReset, he]; simp
      simp only [takeEvent, hostGridRead] at ht
      split at ht
      · cases ht
      · cases ht; exact .respond hreset _
    | gridWrite a v =>
      simp only [takeEvent, hostGridWrite] at ht
      split at ht
      · cases ht
      · next hd =>
        cases ht
        refine .gridWrite a v he ?_
        cases hb : s.busy
        · exact .inl rfl
        · refine .inr ?_
          simpa [hb, inSource, inDest, srcRows, srcCols, dstRows, dstCols] using hd

/-- What an event does to the outcome: only a broken duty of R85 is refused, and nothing faults. -/
theorem step_next_or_refused (s : State) :
    (∃ t, step s = .next t) ∨
      (step s = .refused .hostBreaksGridDuty ∧ s.busy = true ∧
        ((∃ a, s.inbox.head? = some (.gridRead a) ∧ inDest s a = true) ∨
          ∃ a v, s.inbox.head? = some (.gridWrite a v) ∧ (inSource s a = true ∨ inDest s a = true))) := by
  have free : ∀ (r : Reg) (v : Word) (u : State), ∃ t, writeRegFree r v u = .next t := by
    intro r v u
    cases r <;> try exact ⟨_, rfl⟩
    simp only [writeRegFree, issueCommand]
    split
    · next i _ => obtain ⟨t, e, -⟩ := exec_cases i u; exact ⟨t, e⟩
    · exact ⟨_, rfl⟩
  cases he : s.inbox.head? with
  | none => exact .inl ⟨_, step_of_engine (.inl he)⟩
  | some e =>
    rw [step_of_head he]
    cases e with
    | port acc =>
      left
      simp only [takeEvent, portAccess]
      split
      · exact ⟨_, rfl⟩
      · split
        · exact ⟨_, rfl⟩
        · cases acc with
          | read a w => exact ⟨_, rfl⟩
          | write a w v =>
            simp only [writeOffset]
            split
            · simp only [writeReg]
              split
              · exact ⟨_, rfl⟩
              · exact free _ _ _
            · exact ⟨_, rfl⟩
    | waitIdle => exact .inl ⟨_, rfl⟩
    | engine => exact .inl ⟨_, rfl⟩
    | reset => exact .inl ⟨_, rfl⟩
    | gridRead a =>
      simp only [takeEvent, hostGridRead]
      split
      · next h =>
        have h' : s.busy = true ∧ inDest s a = true := by
          simpa [inDest, dstRows, dstCols] using h
        exact .inr ⟨rfl, h'.1, .inl ⟨a, rfl, h'.2⟩⟩
      · exact .inl ⟨_, rfl⟩
    | gridWrite a v =>
      simp only [takeEvent, hostGridWrite]
      split
      · next h =>
        have h' : s.busy = true ∧ (inSource s a = true ∨ inDest s a = true) := by
          simpa [inSource, inDest, srcRows, srcCols, dstRows, dstCols] using h
        exact .inr ⟨rfl, h'.1, .inr ⟨a, v, rfl, h'.2⟩⟩
      · exact .inl ⟨_, rfl⟩

/-! ### Runs -/

theorem isHostAccess_eq_false {e : Event} : e.isHostAccess = false ↔ e = .engine ∨ e = .reset := by
  cases e <;> simp [Event.isHostAccess]

/-- When a run has ended (R234). -/
theorem runEnded_iff {s : State} : runEnded s = true ↔ s.busy = false ∧ ∀ e ∈ s.inbox, e = .engine ∨ e = .reset := by
  simp [runEnded, isHostAccess_eq_false]

/-- The observation at the end of a run is the registers and the memory, and nothing else (R234). -/
theorem observation_eq_iff {s t : State} :
    observation t = observation s ↔ (∀ r : Reg, readReg t r = readReg s r) ∧ t.mem = s.mem := by
  have all : ∀ r : Reg, r ∈ allRegs := fun r => by cases r <;> decide
  simp only [observation, Prod.mk.injEq, List.map_inj_left]
  exact ⟨fun h => ⟨fun r => h.1 r (all r), h.2⟩, fun h => ⟨fun r _ => h.1 r, h.2⟩⟩

theorem coreRun_of_step (M : Host.Core) {s t : M.State} (h : M.step s = .next t) (n : Nat) :
    M.run (n + 1) s = M.run n t := by rw [Host.Core.run, h]

theorem coreRun_of_refused (M : Host.Core) {s : M.State} {r : M.Refusal} (h : M.step s = .refused r) (n : Nat) :
    M.run (n + 1) s = .refused r := by rw [Host.Core.run, h]

/-- A run goes on from the state its first step gives. -/
theorem run_of_step {s t : State} (h : step s = .next t) (n : Nat) : core.run (n + 1) s = core.run n t :=
  coreRun_of_step core h n

/-- A run one step longer ends where the step after it ends. -/
theorem run_then_step {k : Nat} {s t u : State} (h : core.run k s = .next t) (hu : step t = .next u) :
    core.run (k + 1) s = .next u := by
  induction k generalizing s with
  | zero => cases h; exact run_of_step hu 0
  | succ k ih =>
    cases hs : step s with
    | next v => rw [run_of_step hs] at h ⊢; exact ih h
    | fault r => nomatch r
    | refused r => rw [coreRun_of_refused core hs] at h; cases h

end Sys2Proof.Machine
end

