-- ==== Sys2Proof/Tests/Slice0.lean ====
section
/-! SUPPORT. The model's own tests. Expected values come from spec/95_test_vectors.md (its vector names stand in the
comments) or by hand from the rule cited, never from the model. After the tests, one witness for the hypotheses of
each obligation that has any: a concrete state and operands that meet them all. -/

namespace Sys2Proof.Tests

open Sys2Proof.Machine

/-- The next state of an outcome, if there is one. -/
def nextOf : Host.Outcome State Fault Refusal → Option State
  | .next s => some s
  | .fault _ => none
  | .refused _ => none

/-- The configuration of 95_test_vectors.md §2.6, source `[[10, 20], [30, 40]]` at 0, with a 1 by 2 destination at
0x10 and the window at 0x40. -/
def small : State :=
  { State.reset with
    srcDim := 0x00020002, scaleX := 0x8000, scaleY := 0x8000, dstBase := 0x10, dstDim := 0x00010002
    mem := [(0, 10), (1, 20), (2, 30), (3, 40)], platform := { regBase := 0x40, refused := [] } }

/-- `small` with a sweep just started. -/
def sweeping : State := { small with busy := true }

/-- A platform that refuses one address for one kind of access. -/
def refusing (k : AccessKind) (a : Word) : Platform := { regBase := 0x40, refused := [⟨k, a, a⟩] }

/-- `s` with an aligned 32-bit write of `v` to `r` next. -/
def toWrite (r : Reg) (v : Word) (s : State) : State := s.before (writeEvent s r v)

/-- `s` with an aligned 32-bit read of `r` next. -/
def toRead (r : Reg) (s : State) : State := s.before (readEvent s r)

/-! ### Well-formedness -/

theorem test_wf_largest_extents : (HostLine.setSrc 0 0xFFFF 0xFFFF).wf = true ∧ (HostLine.setDst 0 0 0).wf = true := by
  decide

theorem test_wf_refuses_setSrc_rows : (HostLine.setSrc 0 0x10000 1).wf = false := by decide

theorem test_wf_refuses_setSrc_cols : (HostLine.setSrc 0 1 0x10000).wf = false := by decide

theorem test_wf_refuses_setDst_rows : (HostLine.setDst 0 0x10000 1).wf = false := by decide

theorem test_wf_refuses_setDst_cols : (HostLine.setDst 0 1 0x10000).wf = false := by decide

theorem test_wf_refuses_unaligned_window :
    Platform.wf { regBase := 1, refused := [] } = false ∧ Platform.wf { regBase := 63, refused := [] } = false ∧
      Platform.wf { regBase := 64, refused := [] } = true := by decide

/-! ### Decoding: words written out from R90 and R92 -/

theorem test_decode_nop : decode 0b00000000000000000000000000000000#32 = .cmd .nop := by decide

theorem test_decode_mul : decode 0b00000000000000000000000000000001#32 = .cmd .mul := by decide

theorem test_decode_tofix : decode 0b00000000000000000000000000000010#32 = .cmd .tofix := by decide

theorem test_decode_lerp : decode 0b00000000000000000000000000000011#32 = .cmd .lerp := by decide

theorem test_decode_pixel : decode 0b00000000000000000000000000000100#32 = .cmd .pixel := by decide

theorem test_decode_resample : decode 0b00000000000000000000000000000101#32 = .cmd .resample := by decide

/-- V-REG7 (RSVD nonzero below OPCODE 0x00) and its highest bit. -/
theorem test_decode_reserved_field :
    decode 0b00000000000000000000000100000000#32 = .illegal .reservedFieldNonzero ∧
      decode 0b10000000000000000000000000000101#32 = .illegal .reservedFieldNonzero := by decide

/-- V-REG8. -/
theorem test_decode_unassigned_opcode :
    decode 0b00000000000000000000000000000110#32 = .illegal .unassignedOpcode ∧
      decode 0b00000000000000000000000011111111#32 = .illegal .unassignedOpcode := by decide

theorem test_decodeTableWord :
    decodeTableWord 32 5 = some .resample ∧ decodeTableWord 8 3 = some .lerp ∧ decodeTableWord 32 0x105 = none := by
  decide

/-- The word that is placed is the next step's command, from reset. -/
theorem test_withFetchWord :
    (nextOf (step (State.withFetchWord { State.reset with opa := 0xFF, busy := true } 32 2))).map State.res
      = some 0x00FF0000 := by decide

/-! ### The commands -/

theorem test_nop : nextOf (exec .nop sweeping) = some sweeping := by decide

/-- V-M5. -/
theorem test_mul_wraps : exec .mul { small with opa := 0xFFFFFFFF, opb := 0xFFFFFFFF } =
    .next { small with opa := 0xFFFFFFFF, opb := 0xFFFFFFFF, res := 0xFFFE0000 } := rfl

/-- V-M7. -/
theorem test_mul_truncates :
    (nextOf (exec .mul { small with opa := 0x00030000, opb := 0x00005555 })).map State.res = some 0x0000FFFF := by
  decide

/-- V-T6. -/
theorem test_tofix_drops_upper_half :
    (nextOf (exec .tofix { small with opa := 0x12345678, opb := 1, opc := 1 })).map State.res
      = some 0x56780000 := by decide

/-- V-T5. -/
theorem test_tofix_out_of_domain :
    (nextOf (exec .tofix { small with opa := 0x00010000 })).map State.res = some 0 := by decide

/-- V-L3. -/
theorem test_lerp_ignores_upper_opc :
    (nextOf (exec .lerp { small with opa := 0x12345678, opb := 0x9ABCDEF0, opc := 0x12340000 })).map State.res
      = some 0x12345678 := by decide

/-- V-L6: the weight goes with OPB. -/
theorem test_lerp_quarter :
    (nextOf (exec .lerp { small with opa := 0x00640000, opb := 0x00C80000, opc := 0x00004000 })).map State.res
      = some 0x007D0000 := by decide

/-- V-PX2: the row is OPA and the column OPB. -/
theorem test_pixel_row_col : exec .pixel { small with opa := 0, opb := 1 } =
    .next { small with opa := 0, opb := 1, res := 15 } := rfl

/-- V-PX11: B is the first refused read. -/
theorem test_pixel_memory_error :
    nextOf (exec .pixel { small with opb := 1, platform := refusing .read 1 }) =
      some { small with opb := 1, platform := refusing .read 1, err := true, errcode := 4, faultAddr := 1 } := by
  decide

/-- The example of R153: STATUS reads 1 after the write. -/
theorem test_resample_starts :
    (nextOf (exec .resample { small with done := true, curRow := 3, curCol := 4 })).map
      (fun t => (statusWord t, t.curRow, t.curCol)) = some (0x00000001, 0, 0) := by decide

/-- V-RS5. -/
theorem test_resample_domain : (nextOf (exec .resample State.reset)).map statusWord = some 0x00000034 := by decide

/-! ### The stages of a pixel -/

/-- §2.5, limits. -/
theorem test_limits : colLimit { small with srcDim := 0x00030005 } = 0x00040000 ∧
    rowLimit { small with srcDim := 0x00030005 } = 0x00020000 := by decide

/-- §2.5, split, with the wrap of the next neighbor. -/
theorem test_split : splitBase 0x00015556 = 0x00010000 ∧ splitNext 0x00015556 = 0x00020000 ∧
    splitFact 0x00015556 = 0x5556 ∧ splitNext 0xFFFF0000 = 0 := by decide

/-- §2.5, clamp. -/
theorem test_clamp : clamp 0x00020000 0x00010000 = 0x00010000 ∧ clamp 0x00010000 0x00010000 = 0x00010000 ∧
    clamp 0 0x00010000 = 0 := by decide

/-- V-PX6, the wrap of iXN: the reads are at 1, 0, 1, 0. -/
theorem test_pixel_next_neighbor_wraps :
    let s := { small with srcDim := 0x00010002, mem := [(0, 7), (1, 9)], scaleX := 0xFFFF0000, scaleY := 0x00010000 }
    gatherAddrs s (pixelCoords s 0 1) = { a := 1, b := 0, c := 1, d := 0 } ∧
      nextOf (exec .pixel { s with opb := 1 }) = some { s with opb := 1, res := 9 } := by decide

/-- V-PX12, §2.5: the truncation witness. -/
theorem test_vertical_blend_truncates :
    vblend 0x1BBD 0x00CE9500 0x005A7600 = 0x00C1FFFF ∧ extract 0x00C1FFFF = 193 := by decide

/-- V-RS7. -/
theorem test_address_wraps :
    srcAddr { small with srcBase := 0xFFFFFFFE, srcDim := 0x00010004 } 0 3 = 0x00000001 := by decide

/-- The reads of V-PX2 in order: B is right of A, C below it. -/
theorem test_gather_order :
    gatherAddrs small (pixelCoords small 0 1) = { a := 0, b := 1, c := 2, d := 3 } := by decide

/-! ### The engine's steps -/

/-- V-RS1, cell (1, 1): the sample 113, then the cursor on to (1, 2). -/
theorem test_pixel_step :
    let s := { sweeping with
      mem := [(1, 255), (2, 255)], scaleX := 0x0000AAAB, scaleY := 0x0000AAAB, dstDim := 0x00030003
      curRow := 1, curCol := 1 }
    nextOf (step s) = some { s with mem := [(1, 255), (2, 255), (20, 113)], curCol := 2 } := by decide

/-- R155 at the last column of a row. -/
theorem test_pixel_step_next_row :
    (nextOf (step { sweeping with dstDim := 0x00030002, curCol := 1 })).map (fun t => (t.curRow, t.curCol))
      = some (1, 0) := by decide

/-- V-RS6, P6: cell (0, 3), whose write of 96 is refused. -/
theorem test_refused_write :
    let s := { sweeping with
      srcBase := 0x100, srcDim := 0x00010004, scaleY := 0x00010000, dstBase := 0x200, dstDim := 0x00010008
      mem := [(0x101, 64), (0x102, 128), (0x103, 192)], platform := refusing .write 0x203, curCol := 3 }
    nextOf (step s) = some { s with busy := false, err := true, errcode := 4, faultAddr := 0x203 } := by decide

/-- V-RS4, DST_COLS = 0. -/
theorem test_empty_sweep_finishes :
    (nextOf (step { sweeping with dstDim := 0x00030000 })).map statusWord = some 0x00000002 := by decide

/-- Log entry 9: the last clause of R37 as it stands, `CUR_COL < DST_COLS whenever CUR_ROW < DST_ROWS`, fails in a
state that meets the invariant: an accepted RESAMPLE with DST_COLS = 0. -/
theorem test_r37_fails_on_empty_columns :
    let s := startSweep { small with dstDim := 0x00030000 }
    s.Inv ∧ s.busy = true ∧ s.curRow < dstRows s ∧ ¬s.curCol < dstCols s := by decide

/-! ### The register port -/

/-- V-REG1. -/
theorem test_ctrl_write : (nextOf (step (toWrite .ctrl 0xFFFFFFFF small))).map ctrlWord = some 1 := by decide

/-- V-REG2, with a state in which 0 is not what every register holds. -/
theorem test_cmd_reads_zero :
    (nextOf (step (toRead .cmd { small with res := 7 }))).map State.response = some (.data 0) := by decide

/-- V-REG3. -/
theorem test_reserved_offset :
    (nextOf (step (small.before (.port (.read (0x40 + 0x38) .w32))))).map State.response = some (.data 0) ∧
      nextOf (step (sweeping.before (.port (.write (0x40 + 0x3C) .w32 5)))) =
        some { sweeping with response := .taken } := by decide

/-- V-REG5. -/
theorem test_narrow_write : nextOf (step (small.before (.port (.write (0x40 + 0x0C) .w8 0xFF)))) =
    some { small with response := .busError } := by decide

/-- V-REG6. -/
theorem test_misaligned_read : nextOf (step (small.before (.port (.read (0x40 + 2) .w32)))) =
    some { small with response := .busError } := by decide

/-- V-REG7. -/
theorem test_illegal_word : (nextOf (step (toWrite .cmd 0x100 small))).map statusWord = some 0x00000014 := by decide

/-- V-REG9: the first code sticks. -/
theorem test_first_code_sticks :
    (nextOf (step (toWrite .cmd 0x6 { small with err := true, errcode := 3 }))).map statusWord
      = some 0x00000034 := by decide

/-- V-REG10 and V-REG11. -/
theorem test_status_clears_one_bit :
    let s := { small with done := true, err := true, errcode := 3 }
    (nextOf (step (toWrite .status 2 s))).map statusWord = some 0x00000034 ∧
      (nextOf (step (toWrite .status 4 s))).map statusWord = some 0x00000002 := by decide

/-- V-REG13: a locked register while BUSY. -/
theorem test_busy_write : (nextOf (step (toWrite .scaleX 1 sweeping))).map (fun t => (t.scaleX, statusWord t))
    = some (0x8000, 0x00000025) := by decide

/-- V-REG15: BUSY_WRITE before the decode. -/
theorem test_busy_write_of_illegal_word :
    (nextOf (step (toWrite .cmd 0x107 sweeping))).map statusWord = some 0x00000025 := by decide

/-- V-REG16. -/
theorem test_operand_write_while_busy : nextOf (step (toWrite .opa 7 sweeping)) =
    some { sweeping with opa := 7, response := .taken } := by decide

/-- V-REG18. -/
theorem test_irq_unmasked : irq { small with err := true } = false ∧
    (nextOf (step (toWrite .ctrl 1 { small with err := true }))).map irq = some true := by decide

/-- V-REG19. -/
theorem test_reset_during_a_sweep :
    nextOf (step (State.before .reset { sweeping with opa := 7, err := true, errcode := 2, curCol := 1 })) =
      some { State.reset with mem := small.mem, platform := small.platform } := by decide

/-- R61: the byte after the window is not the block's. -/
theorem test_outside_the_window : nextOf (step (small.before (.port (.write (0x40 + 64) .w32 5)))) = some small := by
  decide

/-! ### Host programs and the host's conversions -/

/-- P2's encoding of SETSRC. -/
theorem test_setSrc : lineEvents 0 (.setSrc 0x1000 4 4) =
    [.port (.write 0x24 .w32 0x00001000), .port (.write 0x28 .w32 0x00040004)] := by decide

/-- P2's encoding of SETSCALE: SCALE_Y first. -/
theorem test_setScale : lineEvents 0 (.setScale 0x00010000 0x00008000) =
    [.port (.write 0x20 .w32 0x00010000), .port (.write 0x1C .w32 0x00008000)] := by decide

/-- R98: WAITIDLE goes on while the value read has bit [0] = 1, and is over when it has not. -/
theorem test_waitIdle :
    (nextOf (step (sweeping.before .waitIdle))).map State.inbox = some [.engine, .waitIdle] ∧
      nextOf (step (small.before .waitIdle)) = some { small with response := .data 0 } := by decide

/-- R234: an engine's turn and a reset to come do not put off the end of a run, a host access and a sweep do. -/
theorem test_runEnded :
    runEnded { small with inbox := [.engine, .reset] } = true ∧ runEnded (small.before .waitIdle) = false ∧
      runEnded { small with inbox := [.engine, .gridWrite 0 1] } = false ∧ runEnded sweeping = false := by decide

/-- V-H4, V-H8, V-H12. -/
theorem test_hostToFixed : hostToFixed (1 / 10) = 0x0000199A ∧ hostToFixed (1 / 131072) = 1 ∧
    hostToFixed (65536 - 1 / 131072) = 0 := by
  rw [hostToFixed_of_domain, hostToFixed_of_domain, hostToFixed_of_domain]
  all_goals norm_num
  decide

/-- V-H6: the scale for 2 to 3. -/
theorem test_hostScale : hostScale 2 3 = 0x0000AAAB := by
  rw [hostScale_of_ne_zero (by decide), hostToFixed_of_domain]
  all_goals norm_num
  decide

/-! ### Witnesses for the hypotheses of the obligations -/

theorem small_regions_disjoint : regionsDisjoint small := by
  intro a
  have e1 : inSource small a = decide ((a - 0).toNat < 4) := rfl
  have e2 : inDest small a = decide ((a - 0x10).toNat < 2) := rfl
  rw [e1, e2, decide_eq_true_eq, decide_eq_true_eq]
  bv_omega

theorem small_sweep_admitted : sweepAdmitted small := fun _ => ⟨fun _ => rfl, fun _ => rfl⟩

theorem sweeping_under_way : sweepUnderWay sweeping sweeping :=
  ⟨rfl, by decide, ⟨rfl, rfl, rfl, rfl, rfl, rfl, rfl⟩, fun _ _ => rfl, fun r c _ =>
    ⟨fun h => by
      exfalso
      simp only [cellBefore, BitVec.lt_def, show sweeping.curRow.toNat = 0 from rfl,
        show sweeping.curCol.toNat = 0 from rfl] at h
      omega,
    fun _ => rfl⟩⟩

theorem witness_DecodeAcceptsExactlyTheEncodedWords :
    Instr.resample.wf = true ∧ decode 5 = .cmd .resample ∧ decode 0x100 = .illegal .reservedFieldNonzero ∧
      decode 0xFFFFFF00 = .illegal .reservedFieldNonzero ∧ decode 6 = .illegal .unassignedOpcode ∧
      decode 0xFF = .illegal .unassignedOpcode := by decide

theorem witness_StepExecutesTheCommandWritten :
    (nextIsWrite (toWrite .cmd 5 small) .cmd 5 ∧ (toWrite .cmd 5 small).busy = false ∧ decode 5 = .cmd .resample) ∧
      Instr.nop.wf = true := by decide

theorem witness_NopChangesNothing :
    (nextIsWrite (toWrite .cmd 0 sweeping) .cmd 0 ∧ (toWrite .cmd 0 sweeping).busy = true) ∧
      (nextIsWrite (toWrite .cmd 0x100 small) .cmd 0x100 ∧ (toWrite .cmd 0x100 small).busy = false ∧
        (0x100 : Word).toNat % 2 ^ 8 = 0 ∧ (0x100 : Word).toNat / 2 ^ 8 ≠ 0) := by decide

theorem witness_MulGivesTheScaleReducedProduct :
    (∃ s : State, s.opa = 0 ∨ s.opb = 0) ∧ (∃ s : State, s.opb = 0x00010000) ∧
      (∃ s : State, s.opa = 0x00000001 ∧ s.opb = 0x00000001) ∧ (∃ s : State, s.opa = 0xFFFFFFFF ∧ s.opb = 0xFFFFFFFF) ∧
      (∃ s : State, s.opa = 0x01000000 ∧ s.opb = 0x01000000) ∧
      (∃ s : State, s.opa = 0x00018000 ∧ s.opb = 0x00020000) :=
  ⟨⟨small, .inl rfl⟩, ⟨{ small with opb := 0x00010000 }, rfl⟩, ⟨{ small with opa := 1, opb := 1 }, rfl, rfl⟩,
    ⟨{ small with opa := 0xFFFFFFFF, opb := 0xFFFFFFFF }, rfl, rfl⟩,
    ⟨{ small with opa := 0x01000000, opb := 0x01000000 }, rfl, rfl⟩,
    ⟨{ small with opa := 0x00018000, opb := 0x00020000 }, rfl, rfl⟩⟩

/-- Law 4 at n = 65535, law 5 just below and law 6 at the product 65536. -/
theorem witness_FxmulLaws :
    (65535 : Word).toNat < 65536 ∧ fixedVal 0xFFFFFFFF * fixedVal 0x00010000 < 65536 ∧
      65536 ≤ fixedVal 0x01000000 * fixedVal 0x01000000 := by
  simp only [fixedVal, show (0xFFFFFFFF : Word).toNat = 0xFFFFFFFF from rfl,
    show (0x00010000 : Word).toNat = 0x00010000 from rfl, show (0x01000000 : Word).toNat = 0x01000000 from rfl]
  refine ⟨by decide, ?_, ?_⟩ <;> norm_num

theorem witness_TofixShiftsTheIntegerUp :
    (∃ s : State, s.opa = 0) ∧ (∃ s : State, s.opa = 65535) ∧ (∃ s : State, s.opa = 65536) ∧
      (∃ s : State, s.opa = 0x12345678) ∧ (∃ s : State, s.opa = 0x000000FF) :=
  ⟨⟨small, rfl⟩, ⟨{ small with opa := 65535 }, rfl⟩, ⟨{ small with opa := 65536 }, rfl⟩,
    ⟨{ small with opa := 0x12345678 }, rfl⟩, ⟨{ small with opa := 0x000000FF }, rfl⟩⟩

theorem witness_LerpBlendsTwoFixedPoints :
    (∃ s : State, s.opc.toNat % 65536 = 0 ∧ s.opb = s.opa ∧ ∃ t, exec .lerp s = .next t) ∧
      (∃ s : State, s.opc.toNat % 65536 = 0xFFFF) ∧
      (∃ (s : State) (w : Word), w ≠ s.opc ∧ w.toNat % 65536 = s.opc.toNat % 65536) ∧
      (∃ s : State, s.opa = 0xFFFFFFFF ∧ s.opb = 0xFFFFFFFF ∧ s.opc = 0x8000) ∧
      (∃ s : State, s.opa = 0 ∧ s.opb = 0x00FF0000 ∧ s.opc = 0x8000) :=
  ⟨⟨small, rfl, rfl, _, rfl⟩, ⟨{ small with opc := 0xFFFFFFFF }, rfl⟩, ⟨small, 0xFFFF0000, by decide, rfl⟩,
    ⟨{ small with opa := 0xFFFFFFFF, opb := 0xFFFFFFFF, opc := 0x8000 }, rfl, rfl, rfl⟩,
    ⟨{ small with opb := 0x00FF0000, opc := 0x8000 }, rfl, rfl, rfl⟩⟩

/-- The round trip's interval at 0 and just below its end, and the interval that wraps at its first value. -/
theorem witness_FixedPointsAndTheHostsConversions :
    ((0 : ℚ) ≤ 0 ∧ (0 : ℚ) < 65536 - 1 / 131072) ∧
      ((0 : ℚ) ≤ 65536 - 1 / 65536 ∧ (65536 - 1 / 65536 : ℚ) < 65536 - 1 / 131072) ∧
      ((65536 - 1 / 131072 : ℚ) ≤ 65536 - 1 / 131072 ∧ (65536 - 1 / 131072 : ℚ) < 65536) := by norm_num

theorem witness_StagesOnExactNaturals :
    (srcCols { small with srcDim := 0x00010001 } ≠ 0 ∧ srcRows { small with srcDim := 0x00010001 } ≠ 0) ∧
      (srcCols { small with srcDim := 0xFFFFFFFF } ≠ 0 ∧ srcRows { small with srcDim := 0xFFFFFFFF } ≠ 0) := by
  decide

theorem witness_DestinationCellsHaveTheirOwnBytes :
    isDestCell small 0 0 ∧ isDestCell small 0 1 ∧ isDestCell { small with dstDim := 0xFFFFFFFF } 0xFFFE 0xFFFE := by
  decide

/-- No address refused, each of the four first refused. -/
theorem witness_GatherStopsAtTheFirstRefusedRead :
    let first (p : Platform) :=
      let q := gatherAddrs small (pixelCoords small 1 1)
      [q.a, q.b, q.c, q.d].find? (fun a => !memOK p a .read)
    first small.platform = none ∧ first (refusing .read 0) = some 0 ∧ first (refusing .read 1) = some 1 ∧
      first (refusing .read 2) = some 2 ∧ first (refusing .read 3) = some 3 := by decide

theorem witness_LookupsStayInsideTheSource : srcRows small ≠ 0 ∧ srcCols small ≠ 0 := by decide

theorem witness_BlendedSampleIsBoundedByItsNeighbours :
    ((0xFFFF : Word).toNat ≤ 0xFFFF) ∧ ((0 : Word).toNat ≤ 0xFFFF ∧ (0 : Word) = 0) := by decide

theorem witness_VerticalBlendTruncatesByLessThanTwoUnits :
    (0xFFFF : Word).toNat ≤ 0xFFFF ∧ (0x00FF0000 : Word).toNat ≤ 0x00FF0000 := by decide

theorem witness_UnitScaleCopiesTheSource :
    ∃ s : State, s.scaleX = fixedOne ∧ s.scaleY = fixedOne ∧ srcRows s ≠ 0 ∧ srcCols s ≠ 0 ∧
      ∀ a, inSource s a = true → memOK s.platform a .read = true :=
  ⟨{ small with scaleX := fixedOne, scaleY := fixedOne }, rfl, rfl, by decide, by decide, fun _ _ => rfl⟩

/-- At the first and at the largest coordinates. -/
theorem witness_PixelReturnsTheSample :
    (∀ s ∈ [small, { small with opa := 0xFFFF, opb := 0xFFFF }],
      srcRows s ≠ 0 ∧ srcCols s ≠ 0 ∧ s.scaleX ≠ 0 ∧ s.scaleY ≠ 0 ∧ s.opa.toNat ≤ 0xFFFF ∧ s.opb.toNat ≤ 0xFFFF ∧
      let q := gatherAddrs s (pixelCoords s (s.opa.setWidth 16) (s.opb.setWidth 16))
      memOK s.platform q.a .read = true ∧ memOK s.platform q.b .read = true ∧
        memOK s.platform q.c .read = true ∧ memOK s.platform q.d .read = true) := by decide

theorem witness_PixelRecordsTheRefusedRead :
    let s := { small with opb := 1, platform := refusing .read 1 }
    srcRows s ≠ 0 ∧ srcCols s ≠ 0 ∧ s.scaleX ≠ 0 ∧ s.scaleY ≠ 0 ∧ s.opa.toNat ≤ 0xFFFF ∧ s.opb.toNat ≤ 0xFFFF ∧
      let q := gatherAddrs s (pixelCoords s (s.opa.setWidth 16) (s.opb.setWidth 16))
      [q.a, q.b, q.c, q.d].find? (fun x => !memOK s.platform x .read) = some 1 := by decide

theorem witness_DomainViolationChangesOnlyStatus :
    srcRows { small with srcDim := 0x0000FFFF } = 0 ∧ srcCols { small with srcDim := 0xFFFF0000 } = 0 ∧
      { small with scaleX := 0 }.scaleX = 0 ∧ { small with scaleY := 0 }.scaleY = 0 ∧
      0xFFFF < { small with opa := 0x00010000 }.opa.toNat ∧ 0xFFFF < { small with opb := 0x00010000 }.opb.toNat := by
  decide

theorem witness_ResampleStartsASweep :
    srcRows small ≠ 0 ∧ srcCols small ≠ 0 ∧ small.scaleX ≠ 0 ∧ small.scaleY ≠ 0 := by decide

theorem witness_CommandFrames :
    (∃ t, exec .lerp small = .next t) ∧ (∃ t, exec .pixel small = .next t) ∧ (∃ t, exec .resample small = .next t) :=
  ⟨⟨_, rfl⟩, ⟨{ small with res := 10 }, rfl⟩, ⟨{ small with busy := true }, rfl⟩⟩

theorem witness_ReadsReturnTheRegister :
    (toRead .ctrl small).inbox.head? = some (readEvent (toRead .ctrl small) .ctrl) ∧
      (toRead .faultAddr small).inbox.head? = some (readEvent (toRead .faultAddr small) .faultAddr) ∧
      (small.before (.port (.read (0x40 + 0x38) .w32))).inbox.head? =
        some (.port (.read (small.platform.regBase + 0x38) .w32)) ∧
      (small.before (.port (.read (0x40 + 0x3C) .w32))).inbox.head? =
        some (.port (.read (small.platform.regBase + 0x3C) .w32)) ∧
      (small.before (.port (.read 0x40 .w32))).inbox.head? =
        some (.port (.read (small.platform.regBase + 0x00) .w32)) ∧
      (small.before (.port (.write 0x74 .w32 1))).inbox.head? =
        some (.port (.write (small.platform.regBase + 0x34) .w32 1)) := by decide

theorem witness_ControlAndStatusWrites :
    nextIsWrite (toWrite .ctrl 0xFFFFFFFF sweeping) .ctrl 0xFFFFFFFF ∧
      nextIsWrite (toWrite .status 6 sweeping) .status 6 := by decide

theorem witness_PlainRegisterWrites :
    (∀ r ∈ [Reg.opa, .opb, .opc], nextIsWrite (toWrite r 0xFFFFFFFF sweeping) r 0xFFFFFFFF) ∧
      ∀ r ∈ [Reg.scaleX, .scaleY, .srcBase, .srcDim, .dstBase, .dstDim],
        (toWrite r 0xFFFFFFFF small).busy = false ∧ nextIsWrite (toWrite r 0xFFFFFFFF small) r 0xFFFFFFFF := by decide

theorem witness_LockedWritesWhileBusyAreRejected :
    ∀ r ∈ [Reg.cmd, .scaleX, .scaleY, .srcBase, .srcDim, .dstBase, .dstDim],
      (toWrite r 0 sweeping).busy = true ∧ nextIsWrite (toWrite r 0 sweeping) r 0 := by decide

theorem witness_ReadOnlyAndReservedIgnoreWrites :
    nextIsWrite (toWrite .res 1 sweeping) .res 1 ∧ nextIsWrite (toWrite .faultAddr 1 small) .faultAddr 1 ∧
      (small.before (.port (.write (0x40 + 0x38) .w32 1))).inbox.head? =
        some (.port (.write (small.platform.regBase + 0x38) .w32 1)) ∧
      (small.before (.port (.write (0x40 + 0x3C) .w32 1))).inbox.head? =
        some (.port (.write (small.platform.regBase + 0x3C) .w32 1)) := by decide

/-- A narrow access at the first byte and at the last byte of the window, and a misaligned word. -/
theorem witness_UnalignedOrNarrowAccessGetsBusError :
    ∀ acc ∈ [PortAccess.read 0x40 .w8, .write 0x7F .w16 1, .read 0x41 .w32, .write 0x7F .w32 1],
      (small.before (.port acc)).inbox.head? = some (.port acc) ∧ small.platform.regBase ≤ acc.addr ∧
        acc.addr < small.platform.regBase + 64 ∧ (acc.width ≠ .w32 ∨ (acc.addr - small.platform.regBase) % 4 ≠ 0) := by
  decide

/-- The byte before the window, and the one after it. -/
theorem witness_AccessOutsideTheWindowIsNotSeen :
    ∀ acc ∈ [PortAccess.read 0x3F .w8, .write 0x80 .w32 1],
      (small.before (.port acc)).inbox.head? = some (.port acc) ∧
        (acc.addr < small.platform.regBase ∨ small.platform.regBase + 64 ≤ acc.addr) := by decide

theorem witness_IllegalWordRecordsIllegalCmd :
    ∀ v : Word, v = 0x100 ∨ v = 0xFFFFFF00 ∨ v = 0x06 ∨ v = 0xFF →
      nextIsWrite (toWrite .cmd v small) .cmd v ∧ (toWrite .cmd v small).busy = false ∧
        (v.toNat / 2 ^ 8 ≠ 0 ∨ 0x06 ≤ v.toNat % 2 ^ 8) := by
  rintro v (rfl | rfl | rfl | rfl)
  · exact ⟨rfl, rfl, .inl (by decide)⟩
  · exact ⟨rfl, rfl, .inl (by decide)⟩
  · exact ⟨rfl, rfl, .inr (by decide)⟩
  · exact ⟨rfl, rfl, .inr (by decide)⟩

theorem witness_FirstErrorGivesTheCode :
    small.err = false ∧ { small with err := true, errcode := 3 }.err = true ∧
      nextIsCommand (toWrite .cmd 1 { small with err := true, errcode := 3 }) .mul := by decide

theorem witness_RecordedErrorSticksUntilCleared :
    let s := { small with err := true, errcode := 3 }
    (s.err = true ∧ ∃ t, step s = .next t) ∧
      (nextIsWrite (toWrite .status 4 s) .status 4 ∧ ∃ t, step (toWrite .status 4 s) = .next t) ∧
      (nextIsReset (s.before .reset) ∧ ∃ t, step (s.before .reset) = .next t) :=
  ⟨⟨rfl, _, rfl⟩, ⟨rfl, { small with response := .taken }, rfl⟩, ⟨rfl, _, rfl⟩⟩

theorem witness_IrqIsALevelOfThreeBits :
    nextIsWrite (toWrite .status 6 { sweeping with err := true, errcode := 2, irqEn := true }) .status 6 ∧
      (6 : Word).getLsbD 1 = true ∧ (6 : Word).getLsbD 2 = true := by decide

theorem witness_ResetStepKeepsOnlyTheMemory : nextIsReset (sweeping.before .reset) := by decide

theorem witness_MemoryPortReadsAndWritesOneByte :
    memOK (refusing .write 0xFFFFFFFF) 0xFFFFFFFF .write = false ∧
      (Memory.wf small.mem ∧ memOK small.platform 0xFFFFFFFF .write = true) := by decide

theorem witness_HostGridAccessesKeepTheDuty :
    (sweeping.before (.gridRead 0x10)).inbox.head? = some (.gridRead 0x10) ∧
      ((sweeping.before (.gridWrite 3 1)).inbox.head? = some (.gridWrite 3 1) ∧
        (sweeping.before (.gridWrite 3 1)).busy = true ∧ inSource (sweeping.before (.gridWrite 3 1)) 3 = true) ∧
      ((sweeping.before (.gridWrite 0x11 1)).inbox.head? = some (.gridWrite 0x11 1) ∧
        (sweeping.before (.gridWrite 0x11 1)).busy = true ∧
        inDest (sweeping.before (.gridWrite 0x11 1)) 0x11 = true) ∧
      (Memory.wf sweeping.mem ∧ (sweeping.before (.gridWrite 4 1)).inbox.head? = some (.gridWrite 4 1) ∧
        inSource (sweeping.before (.gridWrite 4 1)) 4 = false ∧ inDest (sweeping.before (.gridWrite 4 1)) 4 = false) ∧
      (Memory.wf small.mem ∧ (small.before (.gridWrite 3 1)).inbox.head? = some (.gridWrite 3 1) ∧
        (small.before (.gridWrite 3 1)).busy = false) := by decide

theorem witness_OnlyTheSweepAndTheHostChangeMemory :
    ∃ t, Memory.wf sweeping.mem ∧ step sweeping = .next t ∧ byteAt t 0x10 ≠ byteAt sweeping 0x10 :=
  ⟨{ sweeping with mem := sweeping.mem ++ [(16, 10)], curCol := 1 }, by decide, rfl, by decide⟩

/-- The finish step at the end of the rows, and of an empty destination; by the empty inbox and by an explicit
engine's turn. -/
theorem witness_FinishStepEndsTheSweep :
    let s := { sweeping with curRow := 1 }
    (nextIsEngine s ∧ s.busy = true ∧ s.curRow = dstRows s) ∧
      let t := State.before .engine { sweeping with dstDim := 0x00030000 }
      nextIsEngine t ∧ t.busy = true ∧ dstCols t = 0 := by decide

theorem witness_PixelStepWritesItsCell :
    ∀ s ∈ [sweeping, { sweeping with curCol := 1 }],
      Memory.wf s.mem ∧ nextIsEngine s ∧ s.busy = true ∧ s.curRow < dstRows s ∧ dstCols s > 0 ∧
        (match pixel s s.curRow s.curCol with | .ok _ => true | .error _ => false) = true ∧
        memOK s.platform (dstAddr s s.curRow s.curCol) .write = true := by decide

/-- A refused read, and a refused write. -/
theorem witness_RefusedAccessEndsTheSweep :
    let s := { sweeping with platform := refusing .read 2 }
    (nextIsEngine s ∧ s.busy = true ∧ s.curRow < dstRows s ∧ dstCols s > 0) ∧
      pixel s s.curRow s.curCol = .error 2 ∧
      let t := { sweeping with platform := refusing .write 0x10 }
      pixel t t.curRow t.curCol = .ok 10 ∧ dstAddr t t.curRow t.curCol = 0x10 ∧
        memOK t.platform 0x10 .write = false :=
  ⟨by decide, rfl, rfl, by decide, by decide⟩

theorem witness_IdleEngineHoldsAllState : nextIsEngine small ∧ small.busy = false := by decide

theorem witness_ClearingDoneRacesTheFinishStep :
    { sweeping with curRow := 1 }.busy = true ∧
      { sweeping with curRow := 1 }.curRow = dstRows { sweeping with curRow := 1 } ∧ (2 : Word).getLsbD 1 = true := by
  decide

theorem witness_GeneralRegistersHaveTheirOwnWriters :
    (∃ t, step (toWrite .cmd 4 small) = .next t ∧ t.res ≠ (toWrite .cmd 4 small).res) ∧
      (∃ t, step (toWrite .opa 1 small) = .next t ∧ t.opa ≠ (toWrite .opa 1 small).opa) ∧
      (∃ t, step (toWrite .opb 1 small) = .next t ∧ t.opb ≠ (toWrite .opb 1 small).opb) ∧
      (∃ t, step (toWrite .opc 1 small) = .next t ∧ t.opc ≠ (toWrite .opc 1 small).opc) :=
  ⟨⟨{ small with res := 10, response := .taken }, rfl, by decide⟩,
    ⟨{ small with opa := 1, response := .taken }, rfl, by decide⟩,
    ⟨{ small with opb := 1, response := .taken }, rfl, by decide⟩,
    ⟨{ small with opc := 1, response := .taken }, rfl, by decide⟩⟩

theorem witness_OnlyTheSweepMovesBusyAndCursor :
    (∃ t, step (toWrite .cmd 5 small) = .next t ∧ (toWrite .cmd 5 small).busy = false ∧ t.busy = true) ∧
      (∃ t, step { sweeping with curRow := 1 } = .next t ∧ { sweeping with curRow := 1 }.busy = true ∧
        t.busy = false) ∧
      (∃ t, step sweeping = .next t ∧ (t.curRow, t.curCol) ≠ (sweeping.curRow, sweeping.curCol)) :=
  ⟨⟨{ sweeping with response := .taken }, rfl, rfl, rfl⟩, ⟨_, rfl, rfl, rfl⟩,
    ⟨{ sweeping with mem := sweeping.mem ++ [(16, 10)], curCol := 1 }, rfl, by decide⟩⟩

theorem witness_OnlyTheFinishStepSetsDone :
    (∃ t, step { sweeping with curRow := 1 } = .next t ∧ { sweeping with curRow := 1 }.done = false ∧
      t.done = true) ∧
      (∃ t, step (toWrite .status 2 { small with done := true }) = .next t ∧ t.done = false) :=
  ⟨⟨_, rfl, rfl, rfl⟩, ⟨{ small with response := .taken }, rfl, rfl⟩⟩

theorem witness_FaultAddrHoldsARefusedAddress :
    ∃ t, step { sweeping with platform := refusing .write 0x10 } = .next t ∧
      t.faultAddr ≠ { sweeping with platform := refusing .write 0x10 }.faultAddr :=
  ⟨{ small with platform := refusing .write 0x10, err := true, errcode := 4, faultAddr := 0x10 }, rfl, by decide⟩

theorem witness_ConfigurationIsConstantDuringASweep :
    (∃ t, step sweeping = .next t ∧ sweeping.busy = true ∧ ¬nextIsReset sweeping) ∧
      (∃ t, step (toWrite .srcBase 1 small) = .next t ∧ ¬sameConfig (toWrite .srcBase 1 small) t) :=
  ⟨⟨{ sweeping with mem := sweeping.mem ++ [(16, 10)], curCol := 1 }, rfl, rfl, by decide⟩,
    ⟨{ small with srcBase := 1, response := .taken }, rfl, fun h => absurd h.2.2.1 (by decide)⟩⟩

theorem witness_EveryStepKeepsTheInvariant :
    sweeping.Inv ∧ (∃ t, step sweeping = .next t) ∧ { sweeping with curRow := 1 }.Inv ∧
      State.Inv { small with dstDim := 0x00030000, busy := true } :=
  ⟨by decide, ⟨{ sweeping with mem := sweeping.mem ++ [(16, 10)], curCol := 1 }, rfl⟩, by decide, by decide⟩

theorem witness_AcceptedResampleIsASweepUnderWay :
    small.Inv ∧ srcRows small ≠ 0 ∧ srcCols small ≠ 0 ∧ small.scaleX ≠ 0 ∧ small.scaleY ≠ 0 ∧
      ∃ t, exec .resample small = .next t :=
  ⟨by decide, by decide, by decide, by decide, by decide, { small with busy := true }, rfl⟩

theorem witness_EveryStepKeepsTheSweepsProgress :
    regionsDisjoint sweeping ∧ sweepUnderWay sweeping sweeping ∧ ¬nextIsReset sweeping ∧
      ∃ t, step sweeping = .next t :=
  ⟨small_regions_disjoint, sweeping_under_way, by decide,
    { sweeping with mem := sweeping.mem ++ [(16, 10)], curCol := 1 }, rfl⟩

theorem witness_SweepTakesOneStepACellAndOneToFinish :
    sweeping.Inv ∧ sweeping.busy = true ∧ sweeping.curRow = 0 ∧ sweeping.curCol = 0 ∧ sweeping.inbox = [] ∧
      sweepAdmitted sweeping :=
  ⟨by decide, rfl, rfl, rfl, rfl, small_sweep_admitted⟩

theorem witness_SweepAgreesWithPixel :
    sweeping.Inv ∧ sweeping.busy = true ∧ sweeping.curRow = 0 ∧ sweeping.curCol = 0 ∧ sweeping.inbox = [] ∧
      sweepAdmitted sweeping ∧ regionsDisjoint sweeping ∧ isDestCell sweeping 0 1 :=
  ⟨by decide, rfl, rfl, rfl, rfl, small_sweep_admitted, small_regions_disjoint, by decide⟩

theorem witness_EverySweepEnds : sweeping.Inv ∧ sweeping.busy = true ∧ sweeping.inbox = [] := by decide

theorem witness_WaitIdleEnds : (sweeping.before .waitIdle).Inv ∧ (sweeping.before .waitIdle).inbox = [.waitIdle] := by
  decide

theorem witness_PseudoInstructionsConfigureTheBlock :
    small.busy = false ∧ small.inbox = [] ∧ (HostLine.setSrc 0 0xFFFF 0xFFFF).wf = true ∧
      (HostLine.setSrc 0 0 0).wf = true := by decide

/-- With nothing to come, and with an engine's turn before a reset. -/
theorem witness_EndedRunHoldsItsObservation :
    (runEnded small = true ∧ ¬nextIsReset small ∧ ∃ t, step small = .next t) ∧
      let s := { small with inbox := [.engine, .reset] }
      runEnded s = true ∧ ¬nextIsReset s ∧ ∃ t, step s = .next t :=
  ⟨⟨by decide, by decide, small, rfl⟩, by decide, by decide, { small with inbox := [.reset] }, rfl⟩

end Sys2Proof.Tests
end

section
/-! PROOF. Family 10_state, part 1: every step keeps the machine's invariant (spec/10_state.md section 6). Each shared
operation keeps it, so every result of an engine's turn and of a command does, so every step does. -/

namespace Sys2Proof.Machine

/-! ### The shared operations keep the invariant -/

/-- A recorded error gives ERRCODE one of the codes 1 to 4 (R191, R192). -/
theorem errWf_raiseError (code : ErrCode) {s : State} (h : ErrWf s) : ErrWf (raiseError code s) := by
  cases he : s.err with
  | true => simpa [ErrWf, he] using h
  | false => cases code <;> simp [ErrWf, he, ErrCode.bits]

theorem inv_raiseError (code : ErrCode) {s : State} (h : s.Inv) : (raiseError code s).Inv := by
  obtain ⟨hm, hp, he, hs⟩ := h
  exact ⟨hm, hp, errWf_raiseError code he, hs⟩

theorem inv_memFail (a : Word) {s : State} (h : s.Inv) : (memFail a s).Inv :=
  inv_raiseError .memError (s := { s with faultAddr := a }) h

/-- Bit [2] clears ERR together with ERRCODE, and DONE only falls (R27, R203). -/
theorem inv_writeStatus (v : Word) {s : State} (h : s.Inv) : (writeStatus v s).Inv := by
  obtain ⟨hm, hp, he, hs⟩ := h
  refine ⟨hm, hp, ?_, fun hb => ?_⟩
  · simp only [ErrWf, writeStatus_err, writeStatus_errcode]
    cases v.getLsbD 2 with
    | true => simp
    | false => simpa [ErrWf] using he
  · obtain ⟨hd, hsrc, hcur⟩ := hs hb
    exact ⟨by simp [hd], hsrc, hcur⟩

theorem inv_storeByte (a : Word) (v : Byte) {s : State} (h : s.Inv) : (storeByte a v s).Inv := by
  obtain ⟨hm, hp, he, hs⟩ := h
  exact ⟨wf_storeByte hm a v, hp, he, hs⟩

theorem inv_resetBlock {s : State} (h : s.Inv) : (resetBlock s).Inv := by
  obtain ⟨hm, hp, -, -⟩ := h
  exact ⟨hm, hp, by simp [ErrWf], by simp⟩

/-- While BUSY = 0 the invariant speaks of the memory, the platform and the error fields alone. -/
theorem inv_of_idle {s t : State} (h : s.Inv) (hm : t.mem = s.mem) (hp : t.platform = s.platform)
    (he : t.err = s.err) (hc : t.errcode = s.errcode) (hb : t.busy = false) : t.Inv := by
  obtain ⟨hmem, hplat, herr, -⟩ := h
  exact ⟨hm ▸ hmem, hp ▸ hplat, by simpa [ErrWf, he, hc] using herr, by simp [hb]⟩

theorem inv_finishSweep {s : State} (h : s.Inv) : (finishSweep s).Inv := inv_of_idle h rfl rfl rfl rfl rfl

theorem inv_abortSweep (a : Word) {s : State} (h : s.Inv) : (abortSweep a s).Inv :=
  inv_of_idle (inv_memFail a h) rfl rfl rfl rfl rfl

/-- A sweep starts at the cell (0, 0), which is within any bounds (R153, R37). -/
theorem inv_startSweep {s : State} (h : s.Inv) (hd : sourceOutOfDomain s = false) : (startSweep s).Inv := by
  obtain ⟨hm, hp, he, -⟩ := h
  refine ⟨hm, hp, he, fun _ => ⟨rfl, hd, ?_⟩⟩
  simp only [CursorWf, startSweep_curRow, startSweep_curCol]
  exact ⟨Nat.zero_le _, fun _ hc => (BitVec.pos_iff_ne_zero _).2 hc, fun _ => trivial⟩

/-! ### The engine keeps the invariant -/

@[simp] theorem advanceCursor_dstRows (s : State) : dstRows (advanceCursor s) = dstRows s := by simp [dstRows]

@[simp] theorem advanceCursor_dstCols (s : State) : dstCols (advanceCursor s) = dstCols s := by simp [dstCols]

@[simp] theorem advanceCursor_sourceOutOfDomain (s : State) :
    sourceOutOfDomain (advanceCursor s) = sourceOutOfDomain s := by
  simp [sourceOutOfDomain, srcRows, srcCols]

/-- From a cell inside the grid the cursor stays in bounds: past the last column it goes to column 0 of the next row,
which is at most DST_ROWS, and elsewhere the next column is in the row (R155, R37). -/
theorem cursorWf_advanceCursor {s : State} (h : CursorWf s) (hr : s.curRow < dstRows s) (hc : dstCols s > 0) :
    CursorWf (advanceCursor s) := by
  obtain ⟨-, hcol, -⟩ := h
  replace hcol : s.curCol < dstCols s := hcol hr ((BitVec.pos_iff_ne_zero _).1 hc)
  simp only [CursorWf, advanceCursor_curRow, advanceCursor_curCol, advanceCursor_dstRows, advanceCursor_dstCols]
  generalize dstRows s = rows at *
  generalize dstCols s = cols at *
  split
  · next hlast => exact ⟨by bv_omega, fun _ _ => hc, fun _ => rfl⟩
  · next hlast =>
    exact ⟨BitVec.le_of_lt hr, fun _ _ => by bv_omega, fun hend => absurd (hend ▸ hr) (BitVec.lt_irrefl _)⟩

theorem inv_advanceCursor {s : State} (h : s.Inv) (hp : pixelEnabled s = true) : (advanceCursor s).Inv := by
  obtain ⟨hm, hplat, he, hs⟩ := h
  obtain ⟨hb, hr, hc⟩ := pixelEnabled_iff.1 hp
  obtain ⟨hd, hsrc, hcur⟩ := hs hb
  refine ⟨?_, ?_, ?_, fun _ => ⟨?_, ?_, cursorWf_advanceCursor hcur hr hc⟩⟩
  · simpa using hm
  · simpa using hplat
  · simpa [ErrWf] using he
  · simpa using hd
  · simpa using hsrc

theorem inv_of_engineResult {s t : State} (h : s.Inv) (ht : EngineResult s t) : t.Inv := by
  cases ht with
  | idle => exact h
  | finish => exact inv_finishSweep h
  | readRefused => exact inv_abortSweep _ h
  | writeRefused => exact inv_abortSweep _ h
  | cell hp v => exact inv_advanceCursor (inv_storeByte _ v h) hp

/-! ### The commands keep the invariant -/

theorem inv_of_commandResult {s t : State} {i : Instr} (h : s.Inv) (ht : CommandResult s i t) : t.Inv := by
  cases ht with
  | nop => exact h
  | mul => exact h
  | tofix => exact h
  | lerp => exact h
  | pixelDomain => exact inv_raiseError _ h
  | pixelRefused => exact inv_memFail _ h
  | pixelSample => exact h
  | resampleDomain => exact inv_raiseError _ h
  | resampleStarts hd => exact inv_startSweep h hd

/-! ### Every step keeps the invariant -/

/-- Settles O52: by what a step can do. The invariant reads neither `inbox` nor `response`, so the event acts on a
state that meets it; a configuration register is written only while BUSY = 0, where the sweep's part says nothing. -/
theorem everyStepKeepsTheInvariant : Obligations.EveryStepKeepsTheInvariant := by
  intro s t h ht
  have hpop : (popped s).Inv := h
  have hwritten : (written (popped s)).Inv := h
  cases step_cases ht with
  | engine _ u hu => exact inv_of_engineResult hpop hu
  | reset => exact inv_resetBlock hpop
  | respond => exact h
  | poll => exact h
  | gridWrite a v => exact inv_storeByte a v hpop
  | busyWrite => exact inv_raiseError _ hwritten
  | ctrl => exact h
  | status v => exact inv_writeStatus v hwritten
  | opa => exact h
  | opb => exact h
  | opc => exact h
  | illegal => exact inv_raiseError _ hwritten
  | command i _ u hu => exact inv_of_commandResult hwritten hu
  | scaleX v _ hb => exact inv_of_idle h rfl rfl rfl rfl hb
  | scaleY v _ hb => exact inv_of_idle h rfl rfl rfl rfl hb
  | srcBase v _ hb => exact inv_of_idle h rfl rfl rfl rfl hb
  | srcDim v _ hb => exact inv_of_idle h rfl rfl rfl rfl hb
  | dstBase v _ hb => exact inv_of_idle h rfl rfl rfl rfl hb
  | dstDim v _ hb => exact inv_of_idle h rfl rfl rfl rfl hb

/-- Settles O51: the launch memory is empty, REG_BASE is 0, no error is recorded and no sweep runs (R221). -/
theorem resetMeetsTheInvariant : Obligations.ResetMeetsTheInvariant := by
  refine ⟨⟨.nil, by simp [State.reset]⟩, rfl, ⟨?_, ?_⟩, fun hb => ?_⟩
  · exact iff_of_true rfl rfl
  · decide
  · cases hb

end Sys2Proof.Machine
end

section
/-! PROOF. Family 10_state, part 2: which steps write which fields (spec/10_state.md sections 2 to 6), each read off from
everything an engine's turn, a command and a step can do. -/

namespace Sys2Proof.Machine

/-! ### What a command leaves unchanged -/

theorem commandResult_of_exec {s t : State} {i : Instr} (h : exec i s = .next t) : CommandResult s i t := by
  obtain ⟨u, hu, hr⟩ := exec_cases i s
  cases hu.symm.trans h
  exact hr

/-- No command writes the grid memory in its own step (R42, R153). -/
theorem commandResult_mem {s t : State} {i : Instr} (h : CommandResult s i t) : t.mem = s.mem := by
  cases h <;> rfl

theorem commandResult_sameConfig {s t : State} {i : Instr} (h : CommandResult s i t) : sameConfig s t := by
  cases h <;> exact ⟨rfl, rfl, rfl, rfl, rfl, rfl, rfl⟩

theorem commandResult_operands {s t : State} {i : Instr} (h : CommandResult s i t) :
    t.opa = s.opa ∧ t.opb = s.opb ∧ t.opc = s.opc := by
  cases h <;> exact ⟨rfl, rfl, rfl⟩

/-- A recorded error outlasts a command (R192). -/
theorem commandResult_keeps_error {s t : State} {i : Instr} (h : CommandResult s i t) (he : s.err = true) :
    t.err = true ∧ t.errcode = s.errcode := by
  cases h <;> simp [he]

theorem byteAt_of_mem_eq {s t : State} (h : t.mem = s.mem) (a : Word) : byteAt t a = byteAt s a :=
  congrArg (Memory.read · a.toNat) h

theorem exec_byteAt {s t : State} {i : Instr} (h : exec i s = .next t) (a : Word) : byteAt t a = byteAt s a :=
  byteAt_of_mem_eq (commandResult_mem (commandResult_of_exec h)) a

/-- A store changes the byte at its own address alone (R67). -/
theorem eq_of_byteAt_storeByte_ne {s : State} {a b : Word} {v : Byte} (hm : Memory.wf s.mem)
    (hne : byteAt (storeByte a v s) b ≠ byteAt s b) : b = a := by
  rw [byteAt_storeByte hm] at hne
  exact by_contra fun hb => hne (if_neg (Ne.symm hb))

/-- Settles O22: by the states a command can lead to. -/
theorem commandFrames : Obligations.CommandFrames := by
  refine ⟨fun i s t hi ht => ⟨?_, exec_byteAt ht⟩, fun s t ht => ⟨?_, exec_byteAt ht⟩,
    fun s t ht => ⟨?_, exec_byteAt ht⟩⟩
  · obtain rfl | rfl | rfl | rfl := hi <;> cases commandResult_of_exec ht <;> rfl
  · cases commandResult_of_exec ht <;> rfl
  · cases commandResult_of_exec ht <;> rfl

/-! ### What an engine's turn leaves unchanged -/

/-- The engine acts only while BUSY = 1 (R45). -/
theorem engineResult_of_idle {s t : State} (h : EngineResult s t) (hb : s.busy = false) : t = s := by
  cases h with
  | idle => rfl
  | finish hf => simp [finishEnabled, hb] at hf
  | readRefused hp => simp [pixelEnabled, hb] at hp
  | writeRefused hp => simp [pixelEnabled, hb] at hp
  | cell hp => simp [pixelEnabled, hb] at hp

theorem engineResult_sameConfig {s t : State} (h : EngineResult s t) : sameConfig s t := by
  cases h <;> simp [sameConfig]

/-- The engine writes none of the general registers (R42). -/
theorem engineResult_general {s t : State} (h : EngineResult s t) :
    t.res = s.res ∧ t.opa = s.opa ∧ t.opb = s.opb ∧ t.opc = s.opc := by
  cases h <;> simp

/-- A recorded error outlasts an engine's turn (R192). -/
theorem engineResult_keeps_error {s t : State} (h : EngineResult s t) (he : s.err = true) :
    t.err = true ∧ t.errcode = s.errcode := by
  cases h <;> simp [he]

/-- The one byte an engine's turn can change is the cell under the cursor (R155). -/
theorem engineResult_byteAt {s t : State} {a : Word} (hm : Memory.wf s.mem) (h : EngineResult s t)
    (hne : byteAt t a ≠ byteAt s a) : s.busy = true ∧ a = dstAddr s s.curRow s.curCol := by
  cases h with
  | idle => exact absurd rfl hne
  | finish => exact absurd rfl hne
  | readRefused => exact absurd rfl hne
  | writeRefused => exact absurd rfl hne
  | cell hp v =>
    obtain ⟨hb, -, -⟩ := pixelEnabled_iff.1 hp
    rw [byteAt_of_mem_eq (advanceCursor_mem _)] at hne
    exact ⟨hb, eq_of_byteAt_storeByte_ne hm hne⟩

/-- DONE is set by the finish step alone, which is enabled at the end of the grid (R154), and no turn clears it. -/
theorem engineResult_done {s t : State} (h : EngineResult s t) :
    t.done = s.done ∨
      (t.done = true ∧ s.busy = true ∧ t.busy = false ∧ (s.curRow = dstRows s ∨ dstCols s = 0)) := by
  cases h with
  | idle => exact .inl rfl
  | finish hf =>
    obtain ⟨hb, hend⟩ := finishEnabled_iff.1 hf
    exact .inr ⟨rfl, hb, rfl, hend⟩
  | readRefused => exact .inl rfl
  | writeRefused => exact .inl rfl
  | cell => exact .inl (by simp)

/-- A turn that changes FAULT_ADDR ends a sweep by a refused read or a refused write (R156, R196). -/
theorem engineResult_faultAddr {s t : State} (h : EngineResult s t) :
    t.faultAddr = s.faultAddr ∨
      (s.busy = true ∧ t.busy = false ∧ t.err = true ∧
        (memOK s.platform t.faultAddr .read = false ∨ memOK s.platform t.faultAddr .write = false)) := by
  cases h with
  | idle => exact .inl rfl
  | finish => exact .inl rfl
  | readRefused hp a ha =>
    obtain ⟨hb, -, -⟩ := pixelEnabled_iff.1 hp
    exact .inr ⟨hb, rfl, rfl, .inl (pixel_error ha)⟩
  | writeRefused hp v _ hw =>
    obtain ⟨hb, -, -⟩ := pixelEnabled_iff.1 hp
    exact .inr ⟨hb, rfl, rfl, .inr hw⟩
  | cell => exact .inl (by simp)

/-! ### Which steps write which fields -/

/-- Settles O32: errors raised later keep the first code (R192); only the W1C write and reset clear it. -/
theorem recordedErrorSticksUntilCleared : Obligations.RecordedErrorSticksUntilCleared := by
  intro s t he ht
  cases step_cases ht
  case engine _ hu => exact .inl (engineResult_keeps_error (s := popped s) hu he)
  case command i _ hu => exact .inl (commandResult_keeps_error (s := written (popped s)) hu he)
  case reset h => exact .inr ⟨rfl, rfl, .inl h⟩
  case status v h =>
    simp only [writeStatus_err, writeStatus_errcode]
    cases hv : v.getLsbD 2 with
    | true => exact .inr ⟨by simp, rfl, .inr ⟨v, h, hv⟩⟩
    | false => exact .inl ⟨by simp [he], rfl⟩
  all_goals exact .inl ⟨by simp [he], by simp [he]⟩

/-- Settles O38: memory is written by the engine's pixel step and by the host's grid write alone, and a write changes
the byte at its own address alone (R67). -/
theorem onlyTheSweepAndTheHostChangeMemory : Obligations.OnlyTheSweepAndTheHostChangeMemory := by
  intro s t a hm ht hne
  cases step_cases ht
  case engine h hu =>
    obtain ⟨hb, ha⟩ := engineResult_byteAt (s := popped s) hm hu hne
    exact .inl ⟨h, hb, ha⟩
  case gridWrite b v h _ =>
    obtain rfl := eq_of_byteAt_storeByte_ne (s := popped s) hm hne
    exact .inr ⟨v, h⟩
  case command i _ hu => exact absurd (byteAt_of_mem_eq (commandResult_mem hu) a) hne
  all_goals exact absurd rfl hne

/-- Settles O45: the engine writes none of the four; MUL, TOFIX, LERP and PIXEL write RES alone of them. -/
theorem generalRegistersHaveTheirOwnWriters : Obligations.GeneralRegistersHaveTheirOwnWriters := by
  intro s t ht
  cases step_cases ht
  case engine h hu =>
    obtain ⟨hres, hopa, hopb, hopc⟩ := engineResult_general hu
    simp [hres, hopa, hopb, hopc]
  case reset h => exact ⟨fun _ => .inl h, fun _ => .inl h, fun _ => .inl h, fun _ => .inl h⟩
  case opa v h => exact ⟨by simp, fun _ => .inr h, by simp, by simp⟩
  case opb v h => exact ⟨by simp, by simp, fun _ => .inr h, by simp⟩
  case opc v h => exact ⟨by simp, by simp, by simp, fun _ => .inr h⟩
  case command i h hu =>
    obtain ⟨hopa, hopb, hopc⟩ := commandResult_operands hu
    refine ⟨fun hne => ?_, by simp [hopa], by simp [hopb], by simp [hopc]⟩
    cases i with
    | nop => cases hu; exact absurd rfl hne
    | mul => exact .inr (.inl h)
    | tofix => exact .inr (.inr (.inl h))
    | lerp => exact .inr (.inr (.inr (.inl h)))
    | pixel => exact .inr (.inr (.inr (.inr h)))
    | resample => cases hu <;> exact absurd rfl hne
  all_goals simp

/-- Settles O46: an idle engine's turn changes nothing, and of the commands only an accepted RESAMPLE writes BUSY and
the cursor. -/
theorem onlyTheSweepMovesBusyAndCursor : Obligations.OnlyTheSweepMovesBusyAndCursor := by
  intro s t ht
  cases step_cases ht
  case engine h hu =>
    cases hb : s.busy with
    | true => exact ⟨by simp, fun _ _ => .inl h, fun _ => .inr (.inl ⟨h, rfl⟩)⟩
    | false => simp [engineResult_of_idle hu hb, hb]
  case reset h => exact ⟨by simp, fun _ _ => .inr h, fun _ => .inr (.inr h)⟩
  case command i h hu =>
    cases hu
    case resampleStarts => exact ⟨fun _ _ => h, by simp, fun _ => .inl h⟩
    all_goals simp +contextual
  all_goals simp +contextual

/-- Settles O47: DONE is written by the engine's turn, an accepted RESAMPLE, the W1C write and reset alone. -/
theorem onlyTheFinishStepSetsDone : Obligations.OnlyTheFinishStepSetsDone := by
  intro s t ht
  cases step_cases ht
  case engine h hu =>
    obtain hd | ⟨hd, hb, hb', hend⟩ := engineResult_done hu
    · simp +contextual [hd]
    · exact ⟨fun _ _ => ⟨h, hb, hb', hend⟩, by simp [hd]⟩
  case reset h => exact ⟨by simp, fun _ _ => .inl h⟩
  case status v h =>
    refine ⟨by simp +contextual, fun hd hd' => .inr (.inr ⟨v, h, ?_⟩)⟩
    simpa [hd] using hd'
  case command i h hu =>
    cases hu
    case resampleStarts => exact ⟨by simp, fun _ _ => .inr (.inl ⟨h, rfl⟩)⟩
    all_goals simp +contextual
  all_goals simp +contextual

/-- Settles O48: FAULT_ADDR is written by MEMFAIL alone, at a refused read of PIXEL or a refused access of the
engine's pixel step. -/
theorem faultAddrHoldsARefusedAddress : Obligations.FaultAddrHoldsARefusedAddress := by
  intro s t ht hne
  cases step_cases ht
  case engine h hu =>
    obtain hf | ⟨hb, hb', he, hr⟩ := engineResult_faultAddr hu
    · exact absurd hf hne
    · exact .inr ⟨.inr ⟨h, hb, hb'⟩, he, hr⟩
  case reset h => exact .inl h
  case command i h hu =>
    cases hu
    case pixelRefused a ha => exact .inr ⟨.inl h, rfl, .inl (pixel_error ha)⟩
    all_goals exact absurd rfl hne
  all_goals exact absurd rfl hne

/-- What a step does to the configuration: nothing, or it is the reset, or a configuration register is written while
BUSY = 0 (R40). -/
theorem step_config {s t : State} (ht : step s = .next t) :
    sameConfig s t ∨
      (t.platform = s.platform ∧
        (nextIsReset s ∨ ∃ (r : Reg) (v : Word), nextIsWrite s r v ∧ s.busy = false ∧ readReg t r = v ∧
          (r = .scaleX ∨ r = .scaleY ∨ r = .srcBase ∨ r = .srcDim ∨ r = .dstBase ∨ r = .dstDim))) := by
  cases step_cases ht
  case engine _ hu => exact .inl (engineResult_sameConfig (s := popped s) hu)
  case command i _ hu => exact .inl (commandResult_sameConfig (s := written (popped s)) hu)
  case reset h => exact .inr ⟨rfl, .inl h⟩
  case scaleX v h hb => exact .inr ⟨rfl, .inr ⟨_, v, h, hb, rfl, by simp⟩⟩
  case scaleY v h hb => exact .inr ⟨rfl, .inr ⟨_, v, h, hb, rfl, by simp⟩⟩
  case srcBase v h hb => exact .inr ⟨rfl, .inr ⟨_, v, h, hb, rfl, by simp⟩⟩
  case srcDim v h hb => exact .inr ⟨rfl, .inr ⟨_, v, h, hb, rfl, by simp⟩⟩
  case dstBase v h hb => exact .inr ⟨rfl, .inr ⟨_, v, h, hb, rfl, by simp⟩⟩
  case dstDim v h hb => exact .inr ⟨rfl, .inr ⟨_, v, h, hb, rfl, by simp⟩⟩
  all_goals exact .inl ⟨rfl, rfl, rfl, rfl, rfl, rfl, rfl⟩

/-- Settles O49: by `step_config`, whose write clause excludes BUSY = 1. -/
theorem configurationIsConstantDuringASweep : Obligations.ConfigurationIsConstantDuringASweep := by
  intro s t ht
  obtain hsame | ⟨hp, h⟩ := step_config ht
  · obtain ⟨-, -, -, -, -, -, hp⟩ := id hsame
    exact ⟨fun _ _ => hsame, fun hne => absurd hsame hne, hp⟩
  · refine ⟨fun hb hreset => ?_, fun _ => h, hp⟩
    obtain hr | ⟨r, v, -, hb', -⟩ := h
    · exact absurd hr hreset
    · simp [hb'] at hb

end Sys2Proof.Machine
end

section
/-! PROOF. Family 10_state, part 3: what the accesses of the register port do (spec/10_state.md R21 to R41), and the
engine's independence of the general registers (R42). -/

namespace Sys2Proof.Machine

/-! ### Reads, and the offsets of the register map -/

/-- Settles O23: the table of R21 is `regOffset` on the registers in their order, and each read or write is taken at
its register's offset. -/
theorem readsReturnTheRegister : Obligations.ReadsReturnTheRegister := by
  refine ⟨fun s r h => step_of_read h, fun s off hoff h => ?_, fun s => ?_, fun s off r hmem => ?_⟩
  · rw [step_of_head h]
    obtain rfl | rfl := hoff
    · exact portAccess_read (s := popped s) (by decide) rfl
    · exact portAccess_read (s := popped s) (by decide) rfl
  · exact ⟨rfl, rfl, rfl, rfl, rfl, rfl, rfl, rfl, rfl, rfl, rfl, rfl, ctrlWord_toNat s, statusWord_toNat s⟩
  · have hoff : off = regOffset r := by
      change (off, r) ∈ allRegs.map fun q => (regOffset q, q) at hmem
      obtain ⟨q, -, hq⟩ := List.mem_map.1 hmem
      cases hq
      rfl
    subst hoff
    exact ⟨step_of_read, fun v h => step_of_write h⟩

/-! ### Writes -/

theorem decode_encode (i : Instr) : decode (encode i) = .cmd i := by cases i <;> decide

/-- Settles O3: a CMD write while BUSY = 0 is taken and its word decoded (R28); the word that `withFetchWord` places is
such a write. -/
theorem stepExecutesTheCommandWritten : Obligations.StepExecutesTheCommandWritten := by
  have runs {s : State} {v : Word} {i : Instr} (h : nextIsWrite s .cmd v) (hb : s.busy = false)
      (hd : decode v = .cmd i) : step s = exec i (written (popped s)) := by
    rw [step_of_freeWrite h (.inl hb), writeRegFree, issueCommand, hd]
  refine ⟨fun s v i h hb hd => runs h hb hd, fun s i _ => ?_⟩
  have hword : BitVec.ofNat 32 ((encode i).toNat % 2 ^ 32) = encode i := by
    rw [Nat.mod_eq_of_lt (encode i).isLt, BitVec.ofNat_toNat, BitVec.setWidth_eq]
  have hplaced : nextIsWrite (s.withFetchWord 32 (encode i).toNat) .cmd (encode i) := by
    rw [nextIsWrite, State.withFetchWord, hword]
    rfl
  exact runs hplaced rfl (decode_encode i)

/-- A flag after a write that clears it by a bit (R27). -/
theorem and_not_eq_ite (flag bit : Bool) : (flag && !bit) = if bit then false else flag := by
  cases bit <;> simp

/-- Settles O24: CTRL and STATUS are not locked, so each write follows its register's own rule, BUSY or not. -/
theorem controlAndStatusWrites : Obligations.ControlAndStatusWrites := by
  refine ⟨fun s v h => step_of_freeWrite h (.inr rfl), fun s v h => ?_⟩
  rw [step_of_freeWrite h (.inr rfl), writeRegFree, writeStatus, and_not_eq_ite, and_not_eq_ite]
  rfl

/-- Settles O25: the operand registers are not locked, and the others are free while BUSY = 0 (R40). -/
theorem plainRegisterWrites : Obligations.PlainRegisterWrites :=
  ⟨fun _ _ => ⟨fun h => step_of_freeWrite h (.inr rfl), fun h => step_of_freeWrite h (.inr rfl),
      fun h => step_of_freeWrite h (.inr rfl)⟩,
    fun _ _ hb => ⟨fun h => step_of_freeWrite h (.inl hb), fun h => step_of_freeWrite h (.inl hb),
      fun h => step_of_freeWrite h (.inl hb), fun h => step_of_freeWrite h (.inl hb),
      fun h => step_of_freeWrite h (.inl hb), fun h => step_of_freeWrite h (.inl hb)⟩⟩

/-- Settles O27: RES and FAULT_ADDR are not locked and their own rule stores nothing; the reserved offsets have no
register (R63). -/
theorem readOnlyAndReservedIgnoreWrites : Obligations.ReadOnlyAndReservedIgnoreWrites := by
  refine ⟨fun s v h => ?_, fun s off v hoff h => ?_⟩
  · obtain h | h := h
    · exact step_of_freeWrite h (.inr rfl)
    · exact step_of_freeWrite h (.inr rfl)
  · rw [step_of_head h]
    obtain rfl | rfl := hoff
    · exact portAccess_write (s := popped s) (by decide) rfl v
    · exact portAccess_write (s := popped s) (by decide) rfl v

/-- Settles O33: a STATUS write with bits [1] and [2] set clears DONE and ERR, on which the level depends (R39). -/
theorem irqIsALevelOfThreeBits : Obligations.IrqIsALevelOfThreeBits := by
  refine ⟨fun s => by simp [irq], fun s v h h1 h2 => ⟨_, step_of_freeWrite h (.inr rfl), ?_⟩, rfl⟩
  simp only [irq, writeStatus_done, writeStatus_err, h1, h2]
  simp

/-! ### The engine and the general registers -/

theorem engineTurn_of_none {s : State} (hf : finishEnabled s = false) (hp : pixelEnabled s = false) :
    engineTurn s = s := by
  rw [engineTurn, hf, hp]; rfl

/-- `s` with other contents of CTRL, OPA, OPB, OPC and RES, and another last answer to the host. -/
def withGeneral (e : Bool) (a b c r : Word) (p : Response) (s : State) : State :=
  { s with irqEn := e, opa := a, opb := b, opc := c, res := r, response := p }

section
variable (e : Bool) (a b c r : Word) (p : Response) (s : State)

theorem advanceCursor_withGeneral :
    advanceCursor (withGeneral e a b c r p s) = withGeneral e a b c r p (advanceCursor s) := by
  rw [advanceCursor, advanceCursor, apply_ite (withGeneral e a b c r p)]
  rfl

/-- The pixel of the cursor, its five accesses and the cursor's move read none of these registers (R140 to R148,
R155). -/
theorem pixelStep_withGeneral :
    pixelStep (withGeneral e a b c r p s) = withGeneral e a b c r p (pixelStep s) := by
  cases hp : pixel s s.curRow s.curCol with
  | error x => rw [pixelStep_of_error hp]; exact pixelStep_of_error hp
  | ok v =>
    cases hw : memOK s.platform (dstAddr s s.curRow s.curCol) .write with
    | false => rw [pixelStep_of_refused hp hw]; exact pixelStep_of_refused hp hw
    | true =>
      rw [pixelStep_of_ok hp hw, ← advanceCursor_withGeneral]
      exact pixelStep_of_ok hp hw

theorem engineTurn_withGeneral :
    engineTurn (withGeneral e a b c r p s) = withGeneral e a b c r p (engineTurn s) := by
  cases hf : finishEnabled s with
  | true => rw [engineTurn_of_finish hf]; exact engineTurn_of_finish hf
  | false =>
    cases hx : pixelEnabled s with
    | true =>
      rw [engineTurn_of_pixel hx, ← pixelStep_withGeneral]
      exact engineTurn_of_pixel hx
    | false => rw [engineTurn_of_none hf hx]; exact engineTurn_of_none hf hx

end

/-- Settles O43: replacing the registers commutes with the engine's turn. -/
theorem engineIgnoresTheGeneralRegisters : Obligations.EngineIgnoresTheGeneralRegisters :=
  fun s e a b c r p => engineTurn_withGeneral e a b c r p s

end Sys2Proof.Machine
end

section
/-! PROOF. Family 20_memory: the addresses of grid cells (spec/20_memory.md R69, R70), accesses that the register port
does not take (R62), the memory port (R66 to R68), and the host's own path to the grid memory (R65, R85). -/

namespace Sys2Proof.Machine

/-! ### The addresses of grid cells -/

/-- Settles O11: the product and the sum fit in 32 bits for 16-bit operands (`cellOffset_lt`), so only the base can
carry out of them. -/
theorem cellAddressesWrapOnlyAtTheBase : Obligations.CellAddressesWrapOnlyAtTheBase := by
  refine fun s r c => ⟨?_, ?_, cellOffset_lt (Nat.mod_lt _ (by decide)), cellOffset_lt (Nat.mod_lt _ (by decide))⟩
  · rw [srcAddr_toNat, srcCols_toNat, Nat.add_assoc]
  · rw [dstAddr_toNat, dstCols_toNat, Nat.add_assoc]

/-- A destination cell is determined by its address: the distance from the base is the cell's place in the grid. -/
theorem destCell_of_dstAddr_eq {s : State} {r c r' c' : Half} (hc : c < dstCols s) (hc' : c' < dstCols s)
    (h : dstAddr s r c = dstAddr s r' c') : r = r' ∧ c = c' := by
  have hplace : r.toNat * (dstCols s).toNat + c.toNat = r'.toNat * (dstCols s).toNat + c'.toNat := by
    rw [← dstAddr_sub_base, ← dstAddr_sub_base, h]
  obtain ⟨hr, hcol⟩ := cell_of_place hc hc' hplace
  exact ⟨BitVec.eq_of_toNat_eq hr, BitVec.eq_of_toNat_eq hcol⟩

/-- Settles O12: a cell's place is below the number of cells, and cells with the same place are equal. -/
theorem destinationCellsHaveTheirOwnBytes : Obligations.DestinationCellsHaveTheirOwnBytes := by
  rintro s r c r' c' ⟨hr, hc⟩ ⟨-, hc'⟩
  exact ⟨inDest_dstAddr ⟨hr, hc⟩, destCell_of_dstAddr_eq hc hc'⟩

/-! ### Accesses that the port does not take -/

theorem inWindow_iff {s : State} {a : Nat} :
    inWindow s a = true ↔ s.platform.regBase ≤ a ∧ a < s.platform.regBase + Config.windowBytes := by
  simp only [inWindow, Bool.and_eq_true, decide_eq_true_eq]

theorem portTakes_eq_false_iff {s : State} {acc : PortAccess} :
    portTakes s acc = false ↔ acc.width ≠ .w32 ∨ windowOffset s acc.addr % 4 ≠ 0 := by
  simp only [portTakes, Bool.and_eq_false_iff, beq_eq_false_iff_ne]

/-- An access in the window that the port does not take is answered BusError, whether it reads or writes. -/
theorem portAccess_of_not_taken {s : State} {acc : PortAccess} (hw : inWindow s acc.addr = true)
    (hp : portTakes s acc = false) : portAccess acc s = .next { s with response := .busError } := by
  unfold portAccess
  rw [hw, hp]
  rfl

/-- Settles O28: the width and the offset are checked before anything is read or written (R62, R200). -/
theorem unalignedOrNarrowAccessGetsBusError : Obligations.UnalignedOrNarrowAccessGetsBusError := by
  intro s acc h hlo hhi hbad
  rw [step_of_head h]
  exact portAccess_of_not_taken (s := popped s) (inWindow_iff.2 ⟨hlo, hhi⟩) (portTakes_eq_false_iff.2 hbad)

/-! ### The memory port -/

theorem memWrite_of_refused {s : State} {a : Word} (h : memOK s.platform a .write = false) (v : Byte) :
    memWrite s a v = .error a := by
  rw [memWrite, h]
  rfl

theorem memWrite_of_admitted {s : State} {a : Word} (h : memOK s.platform a .write = true) (v : Byte) :
    memWrite s a v = .ok (storeByte a v s) :=
  if_pos h

/-- Settles O36: an admitted write is `storeByte`, which keeps the canonical form and reads back at its own address
alone. -/
theorem memoryPortReadsAndWritesOneByte : Obligations.MemoryPortReadsAndWritesOneByte := by
  refine ⟨fun s a => rfl, fun s a v h => memWrite_of_refused h v, fun s a v hm h => ?_⟩
  refine ⟨storeByte a v s, memWrite_of_admitted h v, rfl, wf_storeByte hm a v, ?_, fun b hb => ?_⟩
  · rw [byteAt_storeByte hm, if_pos rfl]
  · rw [byteAt_storeByte hm, if_neg hb.symm]

/-! ### The host's own path to the grid memory -/

theorem hostGridWrite_of_breach {s : State} {a : Word} (hb : s.busy = true)
    (h : inSource s a = true ∨ inDest s a = true) (v : Byte) :
    hostGridWrite a v s = .refused .hostBreaksGridDuty :=
  if_pos (by simpa [hb] using h)

theorem hostGridWrite_of_allowed {s : State} {a : Word}
    (h : s.busy = false ∨ (inSource s a = false ∧ inDest s a = false)) (v : Byte) :
    hostGridWrite a v s = .next (written (storeByte a v s)) := by
  refine if_neg ?_
  obtain hb | ⟨hs, hd⟩ := h
  · simp [hb]
  · simp [hs, hd]

/-- Settles O37: the regions and BUSY are the same once the access has left the inbox, and an allowed write is
`storeByte`. -/
theorem hostGridAccessesKeepTheDuty : Obligations.HostGridAccessesKeepTheDuty := by
  refine ⟨fun s a h => step_of_head h, fun s a v h hb hin => ?_, fun s a v hm h hallowed => ?_⟩
  · rw [step_of_head h]
    exact hostGridWrite_of_breach (s := popped s) hb hin v
  · refine ⟨written (storeByte a v (popped s)), ?_, rfl, fun b => ?_⟩
    · rw [step_of_head h]
      exact hostGridWrite_of_allowed (s := popped s) hallowed v
    · exact (byteAt_storeByte (s := popped s) hm a b v).trans (if_congr eq_comm rfl rfl)

end Sys2Proof.Machine
end

section
/-! PROOF. Family 30_encoding, part 1: decode and encode agree (spec/30_encoding.md R90 to R94). Each kind of illegal word
is characterised by the word's number; a legal word is characterised by `decode_encode` and `eq_encode_of_decode`. -/

namespace Sys2Proof.Machine

/-- The opcode map rejects for the one reason R93 gives it, and exactly from 0x06 on. -/
theorem opcodeMap_eq_illegal_iff {op : BitVec 8} {why : Illegal} :
    opcodeMap op = .illegal why ↔ why = .unassignedOpcode ∧ 6 ≤ op.toNat := by
  unfold opcodeMap
  generalize op.toNat = n
  match n with
  | 0 | 1 | 2 | 3 | 4 | 5 => simp
  | n + 6 => simp [eq_comm]

theorem decode_eq_reserved_iff {v : Word} : decode v = .illegal .reservedFieldNonzero ↔ v.toNat / 256 ≠ 0 := by
  refine ⟨fun h hr => ?_, decode_of_rsvd⟩
  rw [decode_of_opcode hr] at h
  obtain ⟨hwhy, -⟩ := opcodeMap_eq_illegal_iff.1 h
  cases hwhy

theorem decode_eq_unassigned_iff {v : Word} :
    decode v = .illegal .unassignedOpcode ↔ 6 ≤ v.toNat ∧ v.toNat ≤ 0xFF := by
  by_cases hr : v.toNat / 256 = 0
  · rw [decode_of_opcode hr, opcodeMap_eq_illegal_iff, opcodeField_toNat]
    simp only [true_and]
    omega
  · rw [decode_of_rsvd hr]
    have hv : ¬v.toNat ≤ 0xFF := by omega
    simp [hv]

/-- Settles O2: the round trip both ways, and the numbers of each kind of illegal word. -/
theorem decodeAcceptsExactlyTheEncodedWords : Obligations.DecodeAcceptsExactlyTheEncodedWords :=
  ⟨fun i _ => decode_encode i, fun _ _ h => eq_encode_of_decode h, fun _ => decode_eq_reserved_iff,
    fun _ => decode_eq_unassigned_iff⟩

/-- Settles O1: the six words are the commands' encodings, and the four others lie at the bounds of the illegal words of
each kind. -/
theorem opcodeMapRowsAndTheirNeighbours : Obligations.OpcodeMapRowsAndTheirNeighbours :=
  ⟨⟨decode_encode .nop, decode_encode .mul, decode_encode .tofix, decode_encode .lerp, decode_encode .pixel,
      decode_encode .resample⟩,
    decode_eq_unassigned_iff.2 (by decide), decode_eq_unassigned_iff.2 (by decide),
    decode_eq_reserved_iff.2 (by decide), decode_eq_reserved_iff.2 (by decide)⟩

end Sys2Proof.Machine
end

section
/-! PROOF. Family 30_encoding, part 2: the expansions of the pseudo-instructions (spec/30_encoding.md R98), as runs of the
register writes they stand for. -/

namespace Sys2Proof.Machine

/-- The shifted rows and the columns share no bit, so their union is their sum. -/
theorem dimWord_eq_ofNat {rows cols : Nat} (hr : rows ≤ 0xFFFF) (hc : cols ≤ 0xFFFF) :
    dimWord rows cols = BitVec.ofNat 32 (rows * 65536 + cols) := by
  have hrows : rows <<< 16 < 2 ^ 32 := by rw [Nat.shiftLeft_eq]; omega
  apply BitVec.eq_of_toNat_eq
  rw [dimWord, BitVec.toNat_or, BitVec.toNat_shiftLeft, BitVec.toNat_ofNat, BitVec.toNat_ofNat, BitVec.toNat_ofNat,
    Nat.mod_eq_of_lt (a := rows) (by omega), Nat.mod_eq_of_lt (a := cols) (by omega), Nat.mod_eq_of_lt hrows,
    ← Nat.shiftLeft_add_eq_or_of_lt (by omega), Nat.shiftLeft_eq]
  omega

/-- With nothing waiting, what is to come after the launch of a program is the program's own entries. -/
theorem launch_of_empty {s : State} (h : s.inbox = []) (p : List HostLine) :
    s.launch p = { s with inbox := programEvents s.platform.regBase p } := by
  rw [State.launch, h, List.nil_append]

/-- While BUSY = 0, a line's write that comes next acts by its register's own rule, and the run goes on from there. -/
theorem run_lineWrite {s t : State} {r : Reg} {v : Word} {rest : List Event} (hb : s.busy = false)
    (ht : writeRegFree r v (written { s with inbox := rest }) = .next t) (n : Nat) :
    core.run (n + 1) { s with inbox := lineWrite s.platform.regBase r v :: rest } = core.run n t := by
  have hidle : ({ s with inbox := lineWrite s.platform.regBase r v :: rest } : State).busy = false := hb
  exact run_of_step ((step_of_freeWrite rfl (.inl hidle)).trans ht) n

/-- The value of CLRSTATUS clears both done and error bits, whatever they were (R27). -/
theorem writeStatus_six (s : State) :
    writeStatus 0x00000006 s = { s with done := false, err := false, errcode := 0 } := by
  simp [writeStatus]

/-- Settles O59: each expansion is one or two writes that take effect, from a state in which BUSY = 0. -/
theorem pseudoInstructionsConfigureTheBlock : Obligations.PseudoInstructionsConfigureTheBlock := by
  intro s b sy sx rows cols hb hi hwf
  obtain ⟨hr, hc⟩ : rows ≤ 0xFFFF ∧ cols ≤ 0xFFFF := by simpa [HostLine.wf] using hwf
  rw [← dimWord_eq_ofNat hr hc]
  simp only [launch_of_empty hi, hi]
  refine ⟨?_, ?_, ?_, ?_⟩
  · exact (run_lineWrite hb rfl 1).trans (run_lineWrite (s := { s with srcBase := b, response := .taken }) hb rfl 0)
  · exact (run_lineWrite hb rfl 1).trans (run_lineWrite (s := { s with dstBase := b, response := .taken }) hb rfl 0)
  · exact (run_lineWrite hb rfl 1).trans (run_lineWrite (s := { s with scaleY := sy, response := .taken }) hb rfl 0)
  · exact (run_lineWrite hb rfl 0).trans (congrArg Host.Outcome.next (writeStatus_six _))

end Sys2Proof.Machine
end

section
/-! PROOF. Family 40_arith, part 1: what a FixedPoint denotes (spec/40_arith.md R110 to R112) and the laws of `fxmul`
(R114). The truncation and the overflow law are both one equation, `fixedVal_fxmul`. -/

namespace Sys2Proof.Machine

/-! ### What a FixedPoint denotes -/

@[simp] theorem fixedOne_toNat : fixedOne.toNat = 65536 := by decide

theorem fixedVal_nonneg (v : Word) : 0 ≤ fixedVal v := div_nonneg (Nat.cast_nonneg _) (by norm_num)

theorem fixedVal_lt (v : Word) : fixedVal v < 65536 := by
  have hv : (v.toNat : ℚ) < 2 ^ 32 := by exact_mod_cast v.isLt
  rw [fixedVal, div_lt_iff₀ (by norm_num)]
  exact hv.trans_eq (by norm_num)

theorem fixedVal_fixedOne : fixedVal fixedOne = 1 := by rw [fixedVal, fixedOne_toNat]; norm_num

/-- The number of a word, in its whole part and its fraction. -/
theorem fixedVal_eq_whole_add_fraction (v : Word) :
    fixedVal v = ((v >>> 16).toNat : ℚ) + ((v &&& lowerMask).toNat : ℚ) / 65536 := by
  have hsplit : (v.toNat : ℚ) = 65536 * (v.toNat / 65536 : ℕ) + (v.toNat % 65536 : ℕ) := by
    exact_mod_cast (Nat.div_add_mod v.toNat 65536).symm
  rw [fixedVal, hsplit, BitVec.toNat_ushiftRight, Nat.shiftRight_eq_div_pow, and_lowerMask_toNat]
  ring

/-! ### The laws of `fxmul` -/

theorem fxmul_one (a : Word) : fxmul a fixedOne = a := by
  apply BitVec.eq_of_toNat_eq
  rw [fxmul_comm, fxmul_toNat_of_integer (n := 1) fixedOne_toNat, Nat.one_mul, Nat.mod_eq_of_lt a.isLt]

theorem fxmul_zero (a : Word) : fxmul a 0 = 0 := by
  apply BitVec.eq_of_toNat_eq
  rw [fxmul_toNat]
  simp

theorem fxmul_tofix_toNat {n : Word} (h : n.toNat < 65536) (b : Word) :
    (fxmul (tofix n) b).toNat = n.toNat * b.toNat % 2 ^ 32 :=
  fxmul_toNat_of_integer (by rw [tofix_toNat, Nat.mod_eq_of_lt h]) b

/-- The exact product of two values, in units of 2^-32 (R113). -/
theorem fixedVal_mul (a b : Word) : fixedVal a * fixedVal b = (a.toNat * b.toNat : ℕ) / 2 ^ 32 := by
  rw [fixedVal, fixedVal, Nat.cast_mul]
  ring

theorem fixedVal_mul_lt_iff (a b : Word) : fixedVal a * fixedVal b < 65536 ↔ a.toNat * b.toNat < 2 ^ 48 := by
  rw [fixedVal_mul, div_lt_iff₀ (by norm_num), show (65536 : ℚ) * 2 ^ 32 = (2 ^ 48 : ℕ) by norm_num, Nat.cast_lt]

/-- Dropping product bits [15:0] is taking the floor in units of 2^-16. -/
theorem floor_fixedVal_mul (a b : Word) :
    ⌊fixedVal a * fixedVal b * 65536⌋ = ((a.toNat * b.toNat / 65536 : ℕ) : ℤ) := by
  rw [show fixedVal a * fixedVal b * 65536 = (a.toNat * b.toNat : ℕ) / (65536 : ℕ) by
    rw [fixedVal_mul]; push_cast; ring]
  exact Rat.floor_natCast_div_natCast _ _

/-- The value of `fxmul` is the truncated product less the product bits [63:48], each worth a multiple of 65536. -/
theorem fixedVal_fxmul (a b : Word) :
    fixedVal (fxmul a b) =
      (⌊fixedVal a * fixedVal b * 65536⌋ : ℚ) / 65536 - 65536 * (a.toNat * b.toNat / 2 ^ 48 : ℕ) := by
  have hbits : (fxmul a b).toNat + 2 ^ 32 * (a.toNat * b.toNat / 2 ^ 48) = a.toNat * b.toNat / 65536 := by
    rw [fxmul_toNat]
    omega
  rw [floor_fixedVal_mul, Int.cast_natCast, ← hbits, fixedVal]
  push_cast
  ring

/-- Below an exact product of 65536 no product bit above [47:16] is set. -/
theorem fixedVal_fxmul_of_lt {a b : Word} (h : fixedVal a * fixedVal b < 65536) :
    fixedVal (fxmul a b) = (⌊fixedVal a * fixedVal b * 65536⌋ : ℚ) / 65536 := by
  rw [fixedVal_fxmul, Nat.div_eq_of_lt ((fixedVal_mul_lt_iff a b).1 h), Nat.cast_zero, mul_zero, sub_zero]

/-- The floor in units of 2^-16 is less than one unit below. -/
theorem floor_units_bounds (q : ℚ) :
    0 ≤ q - (⌊q * 65536⌋ : ℚ) / 65536 ∧ q - (⌊q * 65536⌋ : ℚ) / 65536 < 1 / 65536 := by
  have hle := Int.floor_le (q * 65536)
  have hlt := Int.lt_floor_add_one (q * 65536)
  constructor <;> linarith

/-- Settles O6: laws 5 and 6 are `fixedVal_fxmul`, with no wrapped bits in law 5; it holds of every product,
so law 6 does not use its premise. -/
theorem fxmulLaws : Obligations.FxmulLaws := by
  refine ⟨fxmul_comm, fxmul_one, fxmul_zero, fun n b h => fxmul_tofix_toNat h b, fun a b h => ?_,
    fun a b _ => ⟨_, fixedVal_fxmul a b⟩, by decide, by decide⟩
  have hval := fixedVal_fxmul_of_lt h
  exact ⟨hval, hval ▸ floor_units_bounds _⟩

end Sys2Proof.Machine
end

section
/-! PROOF. Family 40_arith, part 2: the commands NOP, MUL and TOFIX (spec/40_arith.md R120 to R122). -/

namespace Sys2Proof.Machine

/-! ### MUL and TOFIX -/

/-- MUL on a state whose operands have the product `p` (R121). -/
theorem exec_mul_of_operands {s : State} {a b p : Word} (hp : fxmul a b = p) (ha : s.opa = a) (hb : s.opb = b) :
    exec .mul s = .next { s with res := p } := by
  subst hp ha hb
  rfl

/-- Settles O5: MUL writes `fxmul` of the operands, and each corner case is a product. -/
theorem mulGivesTheScaleReducedProduct : Obligations.MulGivesTheScaleReducedProduct := by
  refine ⟨rfl, fun s => ⟨_, rfl, rfl, fxmul_toNat _ _⟩, fun s h => ?_,
    fun _ => exec_mul_of_operands (fxmul_one _) rfl, fun _ => exec_mul_of_operands (by decide),
    fun _ => exec_mul_of_operands (by decide), fun _ => exec_mul_of_operands (by decide),
    fun _ => exec_mul_of_operands (by decide)⟩
  obtain ha | hb := h
  · exact exec_mul_of_operands ((fxmul_comm _ _).trans (fxmul_zero _)) ha rfl
  · exact exec_mul_of_operands (fxmul_zero _) rfl hb

/-- TOFIX on a state whose OPA converts to `p` (R122). -/
theorem exec_tofix_of_opa {s : State} {n p : Word} (hp : tofix n = p) (h : s.opa = n) :
    exec .tofix s = .next { s with res := p } := by
  subst hp h
  rfl

/-- Keeping the lower 16 bits and moving them up is one shift mod 2^32 (R115). -/
theorem tofix_toNat_eq_shift (n : Word) : (tofix n).toNat = n.toNat * 2 ^ 16 % 2 ^ 32 := by
  rw [tofix_toNat]
  omega

/-- Settles O7: TOFIX writes `tofix` of OPA, and each corner case is a conversion. -/
theorem tofixShiftsTheIntegerUp : Obligations.TofixShiftsTheIntegerUp :=
  ⟨rfl, fun s => ⟨_, rfl, rfl, tofix_toNat_eq_shift _⟩, fun _ => exec_tofix_of_opa (by decide),
    fun _ => exec_tofix_of_opa (by decide), fun _ => exec_tofix_of_opa (by decide),
    fun _ => exec_tofix_of_opa (by decide), fun _ => exec_tofix_of_opa (by decide)⟩

/-! ### NOP, and words that are not NOP or come while BUSY -/

/-- A write to a locked register while BUSY = 1 only records BUSY_WRITE, before any decode (R40). -/
theorem step_of_lockedWrite {s : State} {r : Reg} {v : Word} (h : nextIsWrite s r v) (hb : s.busy = true)
    (hl : regLocked r = true) : step s = .next (raiseError .busyWrite (written (popped s))) := by
  rw [step_of_write h, writeReg, if_pos (by simp [hb, hl])]

/-- A CMD write of an illegal word while BUSY = 0 only records ILLEGAL_CMD (R93, R193). -/
theorem step_of_illegalWord {s : State} {v : Word} {why : Illegal} (h : nextIsWrite s .cmd v) (hb : s.busy = false)
    (hd : decode v = .illegal why) : step s = .next (raiseError .illegalCmd (written (popped s))) := by
  rw [step_of_freeWrite h (.inl hb), writeRegFree, issueCommand, hd]

/-- Settles O4: CMD is locked while BUSY, and a nonzero RSVD field is illegal whatever the OPCODE. -/
theorem nopChangesNothing : Obligations.NopChangesNothing :=
  ⟨rfl, fun _ => rfl, fun _ h hb => step_of_lockedWrite h hb rfl,
    fun _ _ h hb _ hr => step_of_illegalWord h hb (decode_of_rsvd hr)⟩

end Sys2Proof.Machine
end

section
/-! PROOF. Family 40_arith, part 3: the host's conversions on exact rationals (spec/40_arith.md R118, R119; C9). In its
domain `to_fixed` is Mathlib's `round` in units of 2^-16, mod 2^32. -/

namespace Sys2Proof.Machine

theorem hostToFixed_eq_round {q : ℚ} (h0 : 0 ≤ q) (h1 : q < 65536) :
    hostToFixed q = BitVec.ofInt 32 (round (q * 65536)) := by
  rw [hostToFixed_of_domain h0 h1, round_eq]

theorem hostToFixed_fixedVal (v : Word) : hostToFixed (fixedVal v) = v := by
  have hunits : fixedVal v * 65536 = (v.toNat : ℚ) := div_mul_cancel₀ _ (by norm_num)
  rw [hostToFixed_eq_round (fixedVal_nonneg v) (fixedVal_lt v), hunits, round_natCast, BitVec.ofInt_natCast,
    BitVec.ofNat_toNat, BitVec.setWidth_eq]

theorem fixedVal_ofInt {n : ℤ} (h0 : 0 ≤ n) (h1 : n < 2 ^ 32) : fixedVal (BitVec.ofInt 32 n) = (n : ℚ) / 65536 := by
  lift n to ℕ using h0
  rw [fixedVal, BitVec.ofInt_natCast, BitVec.toNat_ofNat, Nat.mod_eq_of_lt (by exact_mod_cast h1), Int.cast_natCast]

/-- Below `65536 - 2^-17` the rounded number of units is below 2^32, so nothing wraps. -/
theorem fixedVal_hostToFixed {q : ℚ} (h0 : 0 ≤ q) (h1 : q < 65536 - 1 / 131072) :
    fixedVal (hostToFixed q) = (round (q * 65536) : ℚ) / 65536 := by
  rw [hostToFixed_eq_round h0 (by linarith)]
  apply fixedVal_ofInt
  · rw [round_eq]
    exact Int.floor_nonneg.2 (by linarith)
  · rw [round_eq, Int.floor_lt]
    push_cast
    linarith

theorem abs_fixedVal_hostToFixed_sub_le {q : ℚ} (h0 : 0 ≤ q) (h1 : q < 65536 - 1 / 131072) :
    |fixedVal (hostToFixed q) - q| ≤ 1 / 131072 := by
  have hround := abs_le.1 (abs_sub_round (q * 65536))
  rw [fixedVal_hostToFixed h0 h1, abs_le]
  constructor <;> linarith

/-- From `65536 - 2^-17` on, the nearest number of units is 2^32, which wraps (C9). -/
theorem hostToFixed_of_top {q : ℚ} (h0 : 65536 - 1 / 131072 ≤ q) (h1 : q < 65536) : hostToFixed q = 0 := by
  have htop : round (q * 65536) = 2 ^ 32 := by
    rw [round_eq, Int.floor_eq_iff]
    push_cast
    constructor <;> linarith
  rw [hostToFixed_eq_round (by linarith) h1, htop]
  rfl

/-- Settles O9: `to_float` is the value, and `to_fixed` the nearest FixedPoint except where it wraps. -/
theorem fixedPointsAndTheHostsConversions : Obligations.FixedPointsAndTheHostsConversions :=
  ⟨fixedVal_eq_whole_add_fraction, fun v => ⟨fixedVal_nonneg v, fixedVal_lt v⟩, fixedVal_fixedOne,
    fun v => ⟨and_upperMask_toNat v, and_lowerMask_toNat v⟩, fun v => (fixedVal_eq_whole_add_fraction v).symm,
    hostToFixed_fixedVal, fun _ => abs_fixedVal_hostToFixed_sub_le, fun _ => hostToFixed_of_top⟩

end Sys2Proof.Machine
end

section
/-! PROOF. Family 41_resampler, part 1: the stages of one pixel on exact naturals (spec/41_resampler.md R140 to
R149). -/

namespace Sys2Proof.Machine

/-! ### The lookups -/

/-- Settles O10: the weights are the fractions of the projections, and the indices of the four neighbors their clamped
whole parts (`pixelCoords_index`). -/
theorem stagesOnExactNaturals : Obligations.StagesOnExactNaturals := by
  refine ⟨fun s => limit_toNat, fun s => limit_toNat, projectX_toNat, projectY_toNat,
    fun t => ⟨and_upperMask_toNat t, splitNext_toNat t, and_lowerMask_toNat t⟩, clamp_toNat, ?_⟩
  intro s row col hr hc
  obtain ⟨hY, hYN, hX, hXN⟩ := pixelCoords_index hr hc row col
  obtain ⟨hfx, hfy⟩ := pixelCoords_weights s row col
  rw [projectX_toNat] at hfx hX hXN
  rw [projectY_toNat] at hfy hY hYN
  rw [srcRows_toNat] at hY hYN
  rw [srcCols_toNat] at hX hXN
  simp only [gatherAddrs, srcAddr_toNat, srcCols_toNat, hX, hXN, hY, hYN, hfx, hfy, Nat.add_assoc, and_self]

/-- Settles O14: by the clamp against the last index of each axis (R143). -/
theorem lookupsStayInsideTheSource : Obligations.LookupsStayInsideTheSource := by
  intro s row col hr hc
  obtain ⟨hY, hYN, hX, hXN⟩ := pixelCoords_inside hr hc row col
  exact ⟨hY, hYN, hX, hXN, gatherAddrs_inSource hr hc row col⟩

theorem gather_of_refused {s : State} {k : Coords} {a : Word}
    (h : firstRefused s.platform (gatherAddrs s k) = some a) : gather s k = .error a := by rw [gather_eq, h]

theorem gather_of_admitted {s : State} {k : Coords} (h : firstRefused s.platform (gatherAddrs s k) = none) :
    gather s k = .ok (bytesAt s (gatherAddrs s k)) := by rw [gather_eq, h]

/-- Settles O13: by the first refused read of the four. -/
theorem gatherStopsAtTheFirstRefusedRead : Obligations.GatherStopsAtTheFirstRefusedRead := by
  intro s k q
  split
  · next a h => exact gather_of_refused h
  · next h => exact gather_of_admitted h

/-! ### The blends -/

theorem byte_toNat_le (b : Byte) : b.toNat ≤ 255 := Nat.le_of_lt_succ b.isLt

/-- A blend of two values of at least `m` in units of 2^-16 is at least `m`: no truncation reaches a whole part. -/
theorem mul_65536_le_blend {f p q : Word} {m : Nat} (hf : f.toNat ≤ 0xFFFF) (hp : m * 65536 ≤ p.toNat)
    (hq : m * 65536 ≤ q.toNat) (hp' : p.toNat ≤ 0x00FF0000) (hq' : q.toNat ≤ 0x00FF0000) :
    m * 65536 ≤ (blend f p q).toNat := by
  have part (g x : Nat) (hx : m * 65536 ≤ x) : g * m ≤ g * x / 65536 := by
    rw [Nat.le_div_iff_mul_le (by norm_num), Nat.mul_assoc]
    exact Nat.mul_le_mul_left g hx
  calc m * 65536 = (65536 - f.toNat) * m + f.toNat * m := by rw [← Nat.add_mul, Nat.mul_comm]; congr 1; omega
    _ ≤ (65536 - f.toNat) * p.toNat / 65536 + f.toNat * q.toNat / 65536 := Nat.add_le_add (part _ _ hp) (part _ _ hq)
    _ = (blend f p q).toNat := (blend_toNat_of_le hf hp' hq' (by norm_num)).1.symm

/-- A horizontal blend is at most 255 in units of 2^-16 (R149 law 2). -/
theorem blend_bytes_le {f : Word} (hf : f.toNat ≤ 0xFFFF) (a b : Byte) :
    (blend f (tofixByte a) (tofixByte b)).toNat ≤ 0x00FF0000 :=
  (blend_bytes_between hf a b).2.trans (Nat.mul_le_mul_right 65536 (max_le (byte_toNat_le a) (byte_toNat_le b)))

section
variable {fx fy : Word} (hx : fx.toNat ≤ 0xFFFF) (hy : fy.toNat ≤ 0xFFFF) (q : Quad Byte)
include hx hy

/-- The result lies between the least and the greatest of the four samples, in units of 2^-16 (R149 laws 2 and 3). -/
theorem blendQuad_between :
    min (min q.a.toNat q.b.toNat) (min q.c.toNat q.d.toNat) * 65536 ≤ (blendQuad fx fy q).toNat ∧
      (blendQuad fx fy q).toNat ≤ max (max q.a.toNat q.b.toNat) (max q.c.toNat q.d.toNat) * 65536 := by
  obtain ⟨htop, htop'⟩ := blend_bytes_between hx q.a q.b
  obtain ⟨hbot, hbot'⟩ := blend_bytes_between hx q.c q.d
  constructor
  · exact mul_65536_le_blend hy ((Nat.mul_le_mul_right _ (min_le_left _ _)).trans htop)
      ((Nat.mul_le_mul_right _ (min_le_right _ _)).trans hbot) (blend_bytes_le hx _ _) (blend_bytes_le hx _ _)
  · refine (blend_toNat_of_le hy (htop'.trans (Nat.mul_le_mul_right _ (le_max_left _ _)))
      (hbot'.trans (Nat.mul_le_mul_right _ (le_max_right _ _))) ?_).2
    have := byte_toNat_le q.a
    have := byte_toNat_le q.b
    have := byte_toNat_le q.c
    have := byte_toNat_le q.d
    omega

theorem blendQuad_le : (blendQuad fx fy q).toNat ≤ 0x00FF0000 :=
  (blend_toNat_of_le hy (blend_bytes_le hx q.a q.b) (blend_bytes_le hx q.c q.d) (by norm_num)).2

/-- The extraction drops no bit of the whole part (R147, R149 law 2). -/
theorem extract_blendQuad_eq_div : (extract (blendQuad fx fy q)).toNat = (blendQuad fx fy q).toNat / 65536 := by
  have := blendQuad_le hx hy q
  rw [extract_toNat]
  omega

end

theorem extract_tofixByte (b : Byte) : extract (tofixByte b) = b := by
  apply BitVec.eq_of_toNat_eq
  have := b.isLt
  rw [extract_toNat, tofixByte_toNat]
  omega

/-- With both weights 0 the sample is A (R149 law 5). -/
theorem extract_blendQuad_zero (q : Quad Byte) : extract (blendQuad 0 0 q) = q.a := by
  rw [blendQuad, vblend, blend_zero, hblendTop, blend_zero, extract_tofixByte]

/-- Settles O15: the horizontal blends are exact and the result is between the samples (`blendQuad_between`), so its
whole part is. -/
theorem blendedSampleIsBoundedByItsNeighbours : Obligations.BlendedSampleIsBoundedByItsNeighbours := by
  intro fx fy q hx hy
  obtain ⟨hlow, hhigh⟩ := blendQuad_between hx hy q
  have hwhole := extract_blendQuad_eq_div hx hy q
  refine ⟨blend_bytes_toNat hx q.a q.b, blend_bytes_toNat hx q.c q.d, blendQuad_le hx hy q, hwhole, ?_, ?_, ?_⟩
  · rw [hwhole]; omega
  · rw [hwhole]; omega
  · rintro rfl rfl
    exact extract_blendQuad_zero q

/-- Settles O16: each of the two products of the vertical blend is truncated by less than one unit (R113), and the
two witnesses evaluate as the spec says. -/
theorem verticalBlendTruncatesByLessThanTwoUnits : Obligations.VerticalBlendTruncatesByLessThanTwoUnits := by
  refine ⟨fun fy top bottom hy htop hbottom => ?_, by decide, by decide⟩
  rw [vblend, (blend_toNat_of_le hy htop hbottom (by norm_num)).1]
  generalize (65536 - fy.toNat) * top.toNat = x
  generalize fy.toNat * bottom.toNat = y
  omega

/-! ### Both scales ONE -/

theorem projectX_of_one {s : State} (h : s.scaleX = fixedOne) (col : Half) : projectX s col = tofixHalf col := by
  rw [projectX, h, fxmul_one]

theorem projectY_of_one {s : State} (h : s.scaleY = fixedOne) (row : Half) : projectY s row = tofixHalf row := by
  rw [projectY, h, fxmul_one]

theorem splitFact_tofixHalf (n : Half) : splitFact (tofixHalf n) = 0 := by
  apply BitVec.eq_of_toNat_eq
  rw [splitFact, and_lowerMask_toNat, tofixHalf_toNat, Nat.mul_mod_left]
  rfl

/-- An integral coordinate clamped to a nonempty axis of `n` cells: the coordinate itself, or the last cell. -/
theorem gridIndex_clamp_tofixHalf {n : Half} (h : n ≠ 0) (x : Half) :
    gridIndex (clamp (splitBase (tofixHalf x)) (tofixHalf n - fixedOne)) = if x < n then x else n - 1 := by
  apply BitVec.eq_of_toNat_eq
  rw [gridIndex_clamp_toNat h, splitBase_index, tofixHalf_toNat, Nat.mul_div_cancel _ (by norm_num)]
  split <;> bv_omega

/-- Settles O17: the projections are the coordinates, both weights are 0, and the sample is A. -/
theorem unitScaleCopiesTheSource : Obligations.UnitScaleCopiesTheSource := by
  intro s row col hx hy hr hc hread
  rw [pixel_of_admitted hr hc hread, sampleAt]
  simp only [pixelCoords, projectX_of_one hx, projectY_of_one hy, splitFact_tofixHalf, extract_blendQuad_zero, bytesAt,
    gatherAddrs, rowLimit, colLimit, gridIndex_clamp_tofixHalf hr, gridIndex_clamp_tofixHalf hc]

end Sys2Proof.Machine
end

section
/-! PROOF. Family 41_resampler, part 2: the commands LERP, PIXEL and RESAMPLE (spec/41_resampler.md R151 to R153). -/

namespace Sys2Proof.Machine

/-! ### LERP -/

/-- LERP on a state whose operands blend to `p` (R151). -/
theorem exec_lerp_of_operands {s : State} {f a b p : Word} (hp : blend f a b = p) (hf : lerpWeight s = f)
    (ha : s.opa = a) (hb : s.opb = b) : exec .lerp s = .next { s with res := p } := by
  subst hp hf ha hb
  rfl

/-- The weight is OPC[15:0] (R151). -/
theorem lerpWeight_eq {s : State} {f : Word} (h : s.opc.toNat % 65536 = f.toNat) : lerpWeight s = f :=
  BitVec.eq_of_toNat_eq ((lerpWeight_toNat s).trans h)

/-- A blend of a value with itself is at most that value: both truncations only lose (R151). -/
theorem blend_self_le {f : Word} (hf : f.toNat ≤ 0xFFFF) (p : Word) : (blend f p p).toNat ≤ p.toNat :=
  (blend_toNat_of_le hf le_rfl le_rfl p.isLt).2

/-- Settles O8: LERP writes `blend` of the operands, and each corner case is a blend. -/
theorem lerpBlendsTwoFixedPoints : Obligations.LerpBlendsTwoFixedPoints := by
  refine ⟨rfl, fun s => ⟨_, rfl, rfl, ?_⟩,
    fun _ h => exec_lerp_of_operands (blend_zero _ _) (lerpWeight_eq h) rfl rfl,
    fun _ h => exec_lerp_of_operands (f := 0xFFFF) rfl (lerpWeight_eq h) rfl rfl, fun s w hw t ht => ?_,
    fun _ ha hb hc => exec_lerp_of_operands (f := 0x8000) (by decide) (lerpWeight_eq (by rw [hc]; rfl)) ha hb,
    fun s h t ht => ?_,
    fun _ ha hb hc => exec_lerp_of_operands (f := 0x8000) (by decide) (lerpWeight_eq (by rw [hc]; rfl)) ha hb⟩
  · rw [blend_toNat (lerpWeight_le s), lerpWeight_toNat]
  · cases ht
    exact exec_lerp_of_operands rfl (lerpWeight_eq (hw.trans (lerpWeight_toNat s).symm)) rfl rfl
  · cases ht
    rw [h]
    exact blend_self_le (lerpWeight_le s) s.opa

/-! ### PIXEL -/

section
variable {s : State} (hd : sourceOutOfDomain s = false) (hc : coordsOutOfDomain s = false)
include hd hc

/-- PIXEL in its domain whose four reads are admitted (R152). -/
theorem exec_pixel_of_ok {v : Byte} (h : pixel s (pixelRow s) (pixelCol s) = .ok v) :
    exec .pixel s = .next { s with res := v.setWidth 32 } := by
  rw [exec, execPixel, hd, hc, h]
  rfl

/-- PIXEL in its domain that ends at a refused read (R152). -/
theorem exec_pixel_of_error {a : Word} (h : pixel s (pixelRow s) (pixelCol s) = .error a) :
    exec .pixel s = .next (memFail a s) := by
  rw [exec, execPixel, hd, hc, h]
  rfl

end

theorem pixelRow_eq (s : State) : pixelRow s = s.opa.setWidth 16 := (BitVec.setWidth_eq_extractLsb' (by decide)).symm

theorem pixelCol_eq (s : State) : pixelCol s = s.opb.setWidth 16 := (BitVec.setWidth_eq_extractLsb' (by decide)).symm

theorem pixel_of_refused {s : State} {row col : Half} {a : Word}
    (h : firstRefused s.platform (gatherAddrs s (pixelCoords s row col)) = some a) : pixel s row col = .error a := by
  rw [pixel_eq, h]

theorem pixel_of_no_refusal {s : State} {row col : Half}
    (h : firstRefused s.platform (gatherAddrs s (pixelCoords s row col)) = none) :
    pixel s row col = .ok (sampleAt s row col) := by rw [pixel_eq, h]

theorem pixelCoords_weights_le (s : State) (row col : Half) :
    (pixelCoords s row col).factX.toNat ≤ 0xFFFF ∧ (pixelCoords s row col).factY.toNat ≤ 0xFFFF :=
  ⟨splitFact_le _, splitFact_le _⟩

/-- The sample on exact naturals: the four bytes blended by the fractions of the projections (R141 to R147). -/
theorem sampleAt_toNat (s : State) (row col : Half) :
    let q := bytesAt s (gatherAddrs s (pixelCoords s row col))
    let f := col.toNat * s.scaleX.toNat % 2 ^ 32 % 65536
    let g := row.toNat * s.scaleY.toNat % 2 ^ 32 % 65536
    (sampleAt s row col).toNat = ((65536 - g) * ((65536 - f) * q.a.toNat + f * q.b.toNat) / 65536 +
      g * ((65536 - f) * q.c.toNat + f * q.d.toNat) / 65536) / 65536 := by
  intro q f g
  obtain ⟨hx, hy⟩ := pixelCoords_weights s row col
  rw [projectX_toNat] at hx
  rw [projectY_toNat] at hy
  obtain ⟨hx', hy'⟩ := pixelCoords_weights_le s row col
  rw [sampleAt, extract_blendQuad_toNat hx' hy', hx, hy]

/-- A coordinate of at most 0xFFFF survives the truncation to 16 bits (R152). -/
theorem setWidth_half_toNat {w : Word} (h : w.toNat ≤ 0xFFFF) : (w.setWidth 16).toNat = w.toNat := by
  rw [BitVec.toNat_setWidth]
  omega

/-- Settles O18: PIXEL answers `pixel`, which with no refused read is the sample of the four bytes. -/
theorem pixelReturnsTheSample : Obligations.PixelReturnsTheSample := by
  intro s hr hc hx hy ha hb k q hA hB hC hD sample f g top bottom
  have hok : pixel s (s.opa.setWidth 16) (s.opb.setWidth 16) = .ok sample :=
    pixel_of_no_refusal (firstRefused_none.2 ⟨hA, hB, hC, hD⟩)
  refine ⟨?_, hok, ?_⟩
  · refine exec_pixel_of_ok (sourceOutOfDomain_eq_false.2 ⟨hr, hc, hx, hy⟩) (coordsOutOfDomain_eq_false.2 ⟨ha, hb⟩) ?_
    rw [pixelRow_eq, pixelCol_eq, hok]
  · have h := sampleAt_toNat s (s.opa.setWidth 16) (s.opb.setWidth 16)
    rw [setWidth_half_toNat ha, setWidth_half_toNat hb] at h
    exact h

/-- Settles O19: `gather` ends at the first refused read, and MEMFAIL records it (R196). -/
theorem pixelRecordsTheRefusedRead : Obligations.PixelRecordsTheRefusedRead := by
  intro s a hr hc hx hy ha hb q hrefused
  have herror : pixel s (pixelRow s) (pixelCol s) = .error a := by
    rw [pixelRow_eq, pixelCol_eq]
    exact pixel_of_refused hrefused
  exact exec_pixel_of_error (sourceOutOfDomain_eq_false.2 ⟨hr, hc, hx, hy⟩) (coordsOutOfDomain_eq_false.2 ⟨ha, hb⟩)
    herror

/-! ### RESAMPLE -/

theorem exec_resample_of_domain {s : State} (h : sourceOutOfDomain s = false) :
    exec .resample s = .next (startSweep s) := by
  rw [exec, execResample, h]
  rfl

/-- Settles O21: in its domain RESAMPLE is `startSweep`, whatever DST_DIM holds. -/
theorem resampleStartsASweep : Obligations.ResampleStartsASweep := fun _ hr hc hx hy =>
  exec_resample_of_domain (sourceOutOfDomain_eq_false.2 ⟨hr, hc, hx, hy⟩)

end Sys2Proof.Machine
end

section
/-! PROOF. Family 41_resampler, part 3: the engine's steps (spec/41_resampler.md R154 to R156). Which of them a turn
takes is fixed by BUSY, the cursor and DST_DIM, and what it does is `finishSweep` or one of the three cases of
`pixelStep`. -/

namespace Sys2Proof.Machine

/-- The engine's turn on a state whose finish step is enabled (R154). -/
theorem step_of_finish {s : State} (h : nextIsEngine s) (hf : finishEnabled s = true) :
    step s = .next (finishSweep (popped s)) := by
  rw [step_of_engine h, engineTurn_of_finish (s := popped s) hf]

/-- The engine's turn on a state whose pixel step is enabled (R155). -/
theorem step_of_pixel {s : State} (h : nextIsEngine s) (hp : pixelEnabled s = true) :
    step s = .next (pixelStep (popped s)) := by
  rw [step_of_engine h, engineTurn_of_pixel (s := popped s) hp]

theorem byteAt_advanceCursor_storeByte {s : State} (hm : Memory.wf s.mem) (a b : Word) (v : Byte) :
    byteAt (advanceCursor (storeByte a v s)) b = if a = b then v else byteAt s b :=
  (byteAt_of_mem_eq (advanceCursor_mem _) b).trans (byteAt_storeByte hm a b v)

/-- Settles O39: the end of the rows or an empty destination enables the finish step. -/
theorem finishStepEndsTheSweep : Obligations.FinishStepEndsTheSweep := fun _ h hb hend =>
  step_of_finish h (finishEnabled_iff.2 ⟨hb, hend⟩)

/-- Settles O40: the step stores one byte and moves the cursor, and the move is read off from `advanceCursor`. -/
theorem pixelStepWritesItsCell : Obligations.PixelStepWritesItsCell := by
  intro s v hm h hb hr hc hv hw
  refine ⟨_, step_of_pixel h (pixelEnabled_iff.2 ⟨hb, hr, hc⟩), ?_⟩
  rw [pixelStep_of_ok (s := popped s) hv hw]
  refine ⟨?_, fun a => ?_, fun hlast => ?_, fun hmore => ?_⟩
  · rw [advanceCursor_mem]
    exact advanceCursor_eq _
  · rw [byteAt_advanceCursor_storeByte (s := popped s) hm]
    simp [eq_comm]
  · rw [advanceCursor_curRow, advanceCursor_curCol]
    exact ⟨if_pos hlast, if_pos hlast⟩
  · rw [advanceCursor_curRow, advanceCursor_curCol]
    exact ⟨if_neg hmore, if_neg hmore⟩

/-- Settles O41: a refused read and a refused write end in the same `abortSweep`. -/
theorem refusedAccessEndsTheSweep : Obligations.RefusedAccessEndsTheSweep := by
  intro s a h hb hr hc hrefused
  rw [step_of_pixel h (pixelEnabled_iff.2 ⟨hb, hr, hc⟩)]
  obtain hread | ⟨⟨v, hv⟩, rfl, hw⟩ := hrefused
  · rw [pixelStep_of_error (s := popped s) hread]
    rfl
  · rw [pixelStep_of_refused (s := popped s) hv hw]
    rfl

end Sys2Proof.Machine
end

section
/-! PROOF. Family 41_resampler, part 4: the progress of a sweep under any order of steps (spec/41_resampler.md R153 to
R157). What a sweep is measured by depends on the configuration alone, and the engine's turn is the one step that writes
a cell, moves the cursor or ends the sweep. -/

namespace Sys2Proof.Machine

/-! ### What the configuration determines -/

theorem sameConfig_refl (s : State) : sameConfig s s := ⟨rfl, rfl, rfl, rfl, rfl, rfl, rfl⟩

theorem sameConfig_trans {l s t : State} (h : sameConfig l s) (h' : sameConfig s t) : sameConfig l t := by
  unfold sameConfig at *
  simp [h, h']

section
variable {s t : State} (h : sameConfig s t)
include h

theorem platform_congr : t.platform = s.platform := by
  obtain ⟨-, -, -, -, -, -, hp⟩ := h
  exact hp

theorem dstRows_congr : dstRows t = dstRows s := by
  obtain ⟨-, -, -, -, -, hdim, -⟩ := h
  rw [dstRows, hdim, dstRows]

theorem dstCols_congr : dstCols t = dstCols s := by
  obtain ⟨-, -, -, -, -, hdim, -⟩ := h
  rw [dstCols, hdim, dstCols]

theorem destCells_congr : destCells t = destCells s := by
  rw [destCells, dstRows_congr h, dstCols_congr h, destCells]

theorem dstAddr_congr (r c : Half) : dstAddr t r c = dstAddr s r c := by
  obtain ⟨-, -, -, -, hbase, -, -⟩ := id h
  rw [dstAddr, hbase, dstCols_congr h, dstAddr]

theorem inDest_congr (a : Word) : inDest t a = inDest s a := by
  obtain ⟨-, -, -, -, hbase, -, -⟩ := id h
  rw [inDest, hbase, dstRows_congr h, dstCols_congr h, inDest]

theorem inSource_congr (a : Word) : inSource t a = inSource s a := by
  obtain ⟨-, -, hbase, hdim, -, -, -⟩ := h
  simp only [inSource, srcRows, srcCols, hbase, hdim]

theorem sourceOutOfDomain_congr : sourceOutOfDomain t = sourceOutOfDomain s := by
  obtain ⟨hx, hy, -, hdim, -, -, -⟩ := h
  simp only [sourceOutOfDomain, srcRows, srcCols, hx, hy, hdim]

end

/-! ### The cells before the cursor -/

theorem not_cellBefore_zero (r c : Half) : ¬cellBefore r c 0 0 := by
  rintro (h | ⟨-, h⟩)
  · exact BitVec.not_lt_zero h
  · exact BitVec.not_lt_zero h

/-- The cells before the cursor after its move are those before it and the one under it (R155). -/
theorem cellBefore_advanceCursor {s : State} {r c : Half} (hc : c < dstCols s) (hr : s.curRow < dstRows s)
    (hcur : s.curCol < dstCols s) :
    cellBefore r c (advanceCursor s).curRow (advanceCursor s).curCol ↔
      cellBefore r c s.curRow s.curCol ∨ (r = s.curRow ∧ c = s.curCol) := by
  simp only [cellBefore, advanceCursor_curRow, advanceCursor_curCol]
  generalize dstRows s = rows at *
  generalize dstCols s = cols at *
  split
  · next hlast => bv_omega
  · next hmore => bv_omega

/-! ### A sweep at its start, and steps that leave it where it is -/

theorem sourceOutOfDomain_of_sweep {s : State} (h : s.Inv) (hb : s.busy = true) : sourceOutOfDomain s = false := by
  obtain ⟨-, -, -, hs⟩ := h
  obtain ⟨-, hd, -⟩ := hs hb
  exact hd

/-- A sweep whose cursor stands at the cell (0, 0) is under way relative to itself (R153). -/
theorem sweepUnderWay_of_start {s : State} (h : s.Inv) (hb : s.busy = true) (hr : s.curRow = 0) (hc : s.curCol = 0) :
    sweepUnderWay s s := by
  refine ⟨hb, h, sameConfig_refl s, fun _ _ => rfl, fun r c _ => ⟨fun hbefore => ?_, fun _ => rfl⟩⟩
  rw [hr, hc] at hbefore
  exact absurd hbefore (not_cellBefore_zero r c)

/-- What `s` keeps of the launch's source, a state with the same bytes in both regions keeps too. -/
theorem sameSource_of_bytes {l s t : State} (hl : sameConfig l s) (hsrc : sameSource l s)
    (hbytes : ∀ a, inSource s a = true ∨ inDest s a = true → byteAt t a = byteAt s a) : sameSource l t := fun a ha => by
  rw [hbytes a (.inl (inSource_congr hl a ▸ ha)), hsrc a ha]

/-- The same for the cells written: every one of them lies in the destination region. -/
theorem cellsWritten_of_bytes {l s t : State} {r' c' : Half} (hl : sameConfig l s) (h : cellsWritten l s r' c')
    (hbytes : ∀ a, inSource s a = true ∨ inDest s a = true → byteAt t a = byteAt s a) : cellsWritten l t r' c' := by
  intro r c hcell
  rw [hbytes _ (.inr (inDest_congr hl _ ▸ inDest_dstAddr hcell))]
  exact h r c hcell

/-- A step that keeps BUSY, the cursor, the configuration and the bytes of both regions leaves the sweep where it
is. -/
theorem sweepUnderWay_of_kept {l s t : State} (h : sweepUnderWay l s) (hinv : t.Inv) (hconf : sameConfig s t)
    (hb : t.busy = s.busy) (hr : t.curRow = s.curRow) (hc : t.curCol = s.curCol)
    (hbytes : ∀ a, inSource s a = true ∨ inDest s a = true → byteAt t a = byteAt s a) : sweepUnderWay l t := by
  obtain ⟨hbusy, -, hl, hsrc, hcells⟩ := h
  refine ⟨hb.trans hbusy, hinv, sameConfig_trans hl hconf, sameSource_of_bytes hl hsrc hbytes, ?_⟩
  rw [hr, hc]
  exact cellsWritten_of_bytes hl hcells hbytes

/-! ### The engine's turn -/

/-- At the end of the grid every destination cell is before the cursor (R154). -/
theorem cellBefore_of_finishEnabled {s : State} {r c : Half} (h : finishEnabled s = true) (hcell : isDestCell s r c) :
    cellBefore r c s.curRow s.curCol := by
  obtain ⟨hr, hc⟩ := hcell
  obtain ⟨-, hend | hempty⟩ := finishEnabled_iff.1 h
  · exact .inl (hend ▸ hr)
  · rw [hempty] at hc
    exact absurd hc BitVec.not_lt_zero

theorem sweepFinished_finishSweep {l s : State} (h : sweepUnderWay l s) (hf : finishEnabled s = true) :
    sweepFinished l (finishSweep s) := by
  obtain ⟨-, -, hl, hsrc, hcells⟩ := h
  refine ⟨rfl, rfl, hl, hsrc, fun r c hcell => ?_⟩
  have hcell' : isDestCell s r c := by rwa [isDestCell, dstRows_congr hl, dstCols_congr hl]
  exact (hcells r c hcell).1 (cellBefore_of_finishEnabled hf hcell')

/-- A refused access ends the sweep with the cells before the cursor as they are (R156). -/
theorem sweepCut_abortSweep {l s : State} {a : Word} (h : sweepUnderWay l s)
    (ha : memOK s.platform a .read = false ∨ memOK s.platform a .write = false) : sweepCut l (abortSweep a s) := by
  obtain ⟨hbusy, ⟨-, -, -, hs⟩, hl, hsrc, hcells⟩ := h
  obtain ⟨hdone, -, -⟩ := hs hbusy
  rw [platform_congr hl] at ha
  exact ⟨rfl, hdone, rfl, hl, hsrc, hcells, ha⟩

theorem curCol_lt_of_pixelEnabled {s : State} (h : s.Inv) (hp : pixelEnabled s = true) : s.curCol < dstCols s := by
  obtain ⟨-, -, -, hs⟩ := h
  obtain ⟨hb, hr, hc⟩ := pixelEnabled_iff.1 hp
  obtain ⟨-, -, -, hcol, -⟩ := hs hb
  exact hcol hr ((BitVec.pos_iff_ne_zero _).1 hc)

/-- A store at a destination cell leaves the source as it was, where the regions are disjoint. -/
theorem sameSource_cell {l s : State} {r c : Half} {v : Byte} (hdis : regionsDisjoint l) (hm : Memory.wf s.mem)
    (hsrc : sameSource l s) (hcell : isDestCell l r c) :
    sameSource l (advanceCursor (storeByte (dstAddr l r c) v s)) := by
  intro a ha
  rw [byteAt_advanceCursor_storeByte hm, if_neg, hsrc a ha]
  rintro rfl
  exact hdis _ ⟨ha, inDest_dstAddr hcell⟩

/-- A store at the cursor's cell writes that cell alone: those before it stay written, and those after it stay as they
were (R155, R157). -/
theorem cellsWritten_cell {l s : State} {v : Byte} (hl : sameConfig l s) (hm : Memory.wf s.mem)
    (hcells : cellsWritten l s s.curRow s.curCol) (hcur : isDestCell l s.curRow s.curCol)
    (hv : pixel l s.curRow s.curCol = .ok v) :
    let t := advanceCursor (storeByte (dstAddr l s.curRow s.curCol) v s)
    cellsWritten l t t.curRow t.curCol := by
  intro t r c hcell
  have hbefore := cellBefore_advanceCursor (s := storeByte (dstAddr l s.curRow s.curCol) v s) (r := r) (c := c)
    (dstCols_congr hl ▸ hcell.2) (dstRows_congr hl ▸ hcur.1) (dstCols_congr hl ▸ hcur.2)
  rw [hbefore, byteAt_advanceCursor_storeByte hm]
  obtain ⟨hdone, htodo⟩ := hcells r c hcell
  by_cases heq : r = s.curRow ∧ c = s.curCol
  · obtain ⟨rfl, rfl⟩ := heq
    simp [hv]
  · have haddr : dstAddr l s.curRow s.curCol ≠ dstAddr l r c := fun h => by
      obtain ⟨hr, hc⟩ := destCell_of_dstAddr_eq hcur.2 hcell.2 h
      exact heq ⟨hr.symm, hc.symm⟩
    rw [if_neg haddr]
    exact ⟨fun h => hdone (h.resolve_right heq), fun h => htodo fun h' => h (.inl h')⟩

/-- A pixel step of a sweep over disjoint regions leaves it under way: the pixel it stores is that of the launch state,
since the source has kept its bytes (R155, R157). -/
theorem sweepUnderWay_cell {l s : State} {v : Byte} (hdis : regionsDisjoint l) (h : sweepUnderWay l s)
    (hp : pixelEnabled s = true) (hv : pixel s s.curRow s.curCol = .ok v) :
    sweepUnderWay l (advanceCursor (storeByte (dstAddr s s.curRow s.curCol) v s)) := by
  obtain ⟨hb, hs, hl, hsrc, hcells⟩ := h
  obtain ⟨-, hr, -⟩ := pixelEnabled_iff.1 hp
  have hinv := inv_advanceCursor (inv_storeByte (dstAddr s s.curRow s.curCol) v hs) hp
  have hconf : sameConfig s (advanceCursor (storeByte (dstAddr s s.curRow s.curCol) v s)) := by simp [sameConfig]
  have hcur : isDestCell l s.curRow s.curCol :=
    ⟨dstRows_congr hl ▸ hr, dstCols_congr hl ▸ curCol_lt_of_pixelEnabled hs hp⟩
  have hdom : sourceOutOfDomain l = false := sourceOutOfDomain_congr hl ▸ sourceOutOfDomain_of_sweep hs hb
  obtain ⟨hm, -, -, -⟩ := hs
  rw [pixel_congr hl hsrc hdom] at hv
  rw [dstAddr_congr hl] at hinv hconf ⊢
  exact ⟨by simpa using hb, hinv, sameConfig_trans hl hconf, sameSource_cell hdis hm hsrc hcur,
    cellsWritten_cell hl hm hcells hcur hv⟩

/-- What an engine's turn does to a sweep over disjoint regions: it leaves the sweep under way, finishes it, or cuts it
at a refused access (R154 to R156). -/
theorem sweep_of_engineResult {l s t : State} (hdis : regionsDisjoint l) (h : sweepUnderWay l s)
    (ht : EngineResult s t) : sweepUnderWay l t ∨ sweepFinished l t ∨ sweepCut l t := by
  cases ht with
  | idle => exact .inl h
  | finish hf => exact .inr (.inl (sweepFinished_finishSweep h hf))
  | readRefused _ a ha => exact .inr (.inr (sweepCut_abortSweep h (.inl (pixel_error ha))))
  | writeRefused _ v _ hw => exact .inr (.inr (sweepCut_abortSweep h (.inr hw)))
  | cell hp v hv => exact .inl (sweepUnderWay_cell hdis h hp hv)

/-! ### Every step -/

/-- Settles O54: only the engine's turn can write a cell or move the cursor (`sweep_of_engineResult`). While BUSY = 1 no
command runs and no configuration register is written (R40), and the host keeps its grid writes out of both regions
(R85). -/
theorem everyStepKeepsTheSweepsProgress : Obligations.EveryStepKeepsTheSweepsProgress := by
  intro l s t hdis h hreset ht
  obtain ⟨hb, hs, -⟩ := id h
  have hinv : t.Inv := everyStepKeepsTheInvariant s t hs ht
  have hconf : sameConfig s t := (configurationIsConstantDuringASweep s t ht).1 hb hreset
  cases step_cases ht
  case engine _ hu => exact sweep_of_engineResult (s := popped s) hdis h hu
  case reset hr => exact absurd hr hreset
  case gridWrite a v _ hd =>
    obtain ⟨hsrc, hdest⟩ := hd.resolve_left (by simp [hb])
    refine .inl (sweepUnderWay_of_kept h hinv hconf rfl rfl rfl fun b hin => ?_)
    have hne : a ≠ b := by
      rintro rfl
      simp [hsrc, hdest] at hin
    obtain ⟨hm, -⟩ := hs
    exact (byteAt_storeByte (s := popped s) hm a b v).trans (if_neg hne)
  case command i hi _ =>
    obtain ⟨-, hidle⟩ := hi
    simp [hidle] at hb
  all_goals exact .inl (sweepUnderWay_of_kept h hinv hconf rfl rfl rfl fun _ _ => rfl)

end Sys2Proof.Machine
end

section
/-! PROOF. Family 41_resampler, part 5: whole sweeps (spec/41_resampler.md R153, R157, R159). One induction on the
number of steps, `run_sweepAt`, follows a sweep with every access admitted from its start to its last cell. -/

namespace Sys2Proof.Machine

/-- Settles O53: RESAMPLE starts the sweep at the cell (0, 0) and keeps the invariant. -/
theorem acceptedResampleIsASweepUnderWay : Obligations.AcceptedResampleIsASweepUnderWay := by
  intro s t h hr hc hx hy ht
  have hd := sourceOutOfDomain_eq_false.2 ⟨hr, hc, hx, hy⟩
  cases (exec_resample_of_domain hd).symm.trans ht
  exact ⟨sweepUnderWay_of_start (inv_startSweep h hd) rfl rfl rfl, by simp [cellsDone]⟩

/-! ### The cells a sweep has done -/

/-- As long as cells are left the cursor is at one of them, so the pixel step is enabled (R155). -/
theorem pixelEnabled_of_cellsDone_lt {s : State} (h : s.Inv) (hb : s.busy = true) (hlt : cellsDone s < destCells s) :
    pixelEnabled s = true := by
  obtain ⟨-, -, -, hs⟩ := h
  obtain ⟨-, -, hle, -, -⟩ := hs hb
  rw [cellsDone, destCells] at hlt
  refine pixelEnabled_iff.2 ⟨hb, BitVec.lt_of_le_ne hle fun hend => ?_, (BitVec.pos_iff_ne_zero _).2 fun hempty => ?_⟩
  · rw [hend] at hlt
    omega
  · simp [hempty] at hlt

/-- With every cell done the finish step is enabled (R154): a cursor inside the grid would have a cell left. -/
theorem finishEnabled_of_cellsDone_eq {s : State} (h : s.Inv) (hb : s.busy = true) (heq : cellsDone s = destCells s) :
    finishEnabled s = true := by
  obtain ⟨-, -, -, hs⟩ := h
  obtain ⟨-, -, hle, hcol, -⟩ := hs hb
  refine finishEnabled_iff.2 ⟨hb, or_iff_not_imp_right.2 fun hc => by_contra fun hne => ?_⟩
  have hr := BitVec.lt_of_le_ne hle hne
  exact (cell_place_lt hr (hcol hr hc)).ne heq

/-- The cursor's move is to the next cell in row-major order, so one more cell is done (R157). -/
theorem cellsDone_advanceCursor {s : State} (h : s.Inv) (hp : pixelEnabled s = true) :
    cellsDone (advanceCursor s) = cellsDone s + 1 := by
  have hcur := curCol_lt_of_pixelEnabled h hp
  obtain ⟨-, hr, -⟩ := pixelEnabled_iff.1 hp
  simp only [cellsDone, advanceCursor_curRow, advanceCursor_curCol, advanceCursor_dstCols]
  split
  · next hlast =>
    have hrow : (s.curRow + 1).toNat = s.curRow.toNat + 1 := by bv_omega
    rw [hrow, ← hlast, Nat.succ_mul]
    rfl
  · next hmore =>
    have hcol : (s.curCol + 1).toNat = s.curCol.toNat + 1 := by bv_omega
    rw [hcol, Nat.add_assoc]

/-! ### A sweep with every access admitted -/

/-- `t` is the state `k` cells into the sweep started in `s`, with no host access to come. -/
structure SweepAt (s : State) (k : Nat) (t : State) : Prop where
  busy : t.busy = true
  inv : t.Inv
  inbox : t.inbox = []
  config : sameConfig s t
  err : t.err = s.err
  cells : cellsDone t = k
  underWay : regionsDisjoint s → sweepUnderWay s t

theorem sweepAt_zero {s : State} (h : s.Inv) (hb : s.busy = true) (hr : s.curRow = 0) (hc : s.curCol = 0)
    (hi : s.inbox = []) : SweepAt s 0 s where
  busy := hb
  inv := h
  inbox := hi
  config := sameConfig_refl s
  err := rfl
  cells := by simp [cellsDone, hr, hc]
  underWay _ := sweepUnderWay_of_start h hb hr hc

theorem sweepAdmitted_congr {s t : State} (h : sameConfig s t) (hs : sweepAdmitted s) : sweepAdmitted t := fun a => by
  rw [inSource_congr h, inDest_congr h, platform_congr h]
  exact hs a

theorem popped_of_inbox_nil {s : State} (h : s.inbox = []) : popped s = s := by
  cases s
  subst h
  rfl

theorem nextIsEngine_of_inbox_nil {s : State} (h : s.inbox = []) : nextIsEngine s := .inl (h ▸ rfl)

/-- With cells left and every access admitted, one step is a pixel step (R155). -/
theorem step_cell_of_admitted {s : State} (h : s.Inv) (hb : s.busy = true) (hi : s.inbox = []) (ha : sweepAdmitted s)
    (hlt : cellsDone s < destCells s) :
    ∃ v, pixel s s.curRow s.curCol = .ok v ∧ pixelEnabled s = true ∧
      step s = .next (advanceCursor (storeByte (dstAddr s s.curRow s.curCol) v s)) := by
  have hp := pixelEnabled_of_cellsDone_lt h hb hlt
  obtain ⟨hr, hc, -, -⟩ := sourceOutOfDomain_eq_false.1 (sourceOutOfDomain_of_sweep h hb)
  obtain ⟨-, hrow, -⟩ := pixelEnabled_iff.1 hp
  have hv := pixel_of_admitted hr hc (fun a => (ha a).1) s.curRow s.curCol
  have hw := (ha _).2 (inDest_dstAddr ⟨hrow, curCol_lt_of_pixelEnabled h hp⟩)
  refine ⟨_, hv, hp, ?_⟩
  rw [step_of_pixel (nextIsEngine_of_inbox_nil hi) hp, popped_of_inbox_nil hi, pixelStep_of_ok hv hw]

theorem sweepAt_succ {s t : State} {k : Nat} (h : SweepAt s k t) (ha : sweepAdmitted s) (hk : k < destCells s) :
    ∃ u, step t = .next u ∧ SweepAt s (k + 1) u := by
  have hlt : cellsDone t < destCells t := by rwa [h.cells, destCells_congr h.config]
  obtain ⟨v, hv, hp, hstep⟩ := step_cell_of_admitted h.inv h.busy h.inbox (sweepAdmitted_congr h.config ha) hlt
  have hstored := inv_storeByte (dstAddr t t.curRow t.curCol) v h.inv
  refine ⟨_, hstep, ?_⟩
  exact {
    busy := by simp [h.busy]
    inv := inv_advanceCursor hstored hp
    inbox := by simp [h.inbox]
    config := sameConfig_trans h.config (by simp [sameConfig])
    err := by simp [h.err]
    cells := (cellsDone_advanceCursor hstored hp).trans (congrArg (· + 1) h.cells)
    underWay hdis := sweepUnderWay_cell hdis (h.underWay hdis) hp hv }

/-- From the start of a sweep with every access admitted, `k` steps do `k` cells (R157). -/
theorem run_sweepAt {s : State} (h : SweepAt s 0 s) (ha : sweepAdmitted s) {k : Nat} (hk : k ≤ destCells s) :
    ∃ t, core.run k s = .next t ∧ SweepAt s k t := by
  induction k with
  | zero => exact ⟨s, rfl, h⟩
  | succ k ih =>
    obtain ⟨t, hrun, ht⟩ := ih (Nat.le_of_succ_le hk)
    obtain ⟨u, hstep, hu⟩ := sweepAt_succ ht ha hk
    exact ⟨u, run_then_step hrun hstep, hu⟩

/-- One step after the last cell the sweep is finished (R154). -/
theorem run_finishSweep {s : State} (h : SweepAt s 0 s) (ha : sweepAdmitted s) :
    ∃ t, core.run (destCells s + 1) s = .next (finishSweep t) ∧ SweepAt s (destCells s) t ∧ finishEnabled t = true := by
  obtain ⟨t, hrun, ht⟩ := run_sweepAt h ha le_rfl
  have hf := finishEnabled_of_cellsDone_eq ht.inv ht.busy (ht.cells.trans (destCells_congr ht.config).symm)
  have hstep := step_of_finish (nextIsEngine_of_inbox_nil ht.inbox) hf
  rw [popped_of_inbox_nil ht.inbox] at hstep
  exact ⟨t, run_then_step hrun hstep, ht, hf⟩

/-- Settles O55: by `run_sweepAt` and `run_finishSweep`. -/
theorem sweepTakesOneStepACellAndOneToFinish : Obligations.SweepTakesOneStepACellAndOneToFinish := by
  intro s h hb hr hc hi ha
  have hstart := sweepAt_zero h hb hr hc hi
  refine ⟨fun k hk => ?_, ?_⟩
  · obtain ⟨t, hrun, ht⟩ := run_sweepAt hstart ha hk
    exact ⟨t, hrun, ht.busy, ht.cells⟩
  · obtain ⟨t, hrun, ht, -⟩ := run_finishSweep hstart ha
    exact ⟨_, hrun, rfl, rfl, ht.err, ht.cells⟩

/-! ### PIXEL after a sweep -/

theorem setWidth_word_le (n : Half) : (n.setWidth 32).toNat ≤ 0xFFFF := by
  have := n.isLt
  rw [BitVec.toNat_setWidth]
  omega

/-- PIXEL at the coordinates (r, c) reads them back from OPA and OPB (R152). -/
theorem exec_pixel_at {s : State} {r c : Half} {v : Byte} (hd : sourceOutOfDomain s = false)
    (hv : pixel s r c = .ok v) :
    exec .pixel { s with opa := r.setWidth 32, opb := c.setWidth 32 } =
      .next { s with opa := r.setWidth 32, opb := c.setWidth 32, res := v.setWidth 32 } := by
  have hrow : (r.setWidth 32).setWidth 16 = r := by simp
  have hcol : (c.setWidth 32).setWidth 16 = c := by simp
  refine exec_pixel_of_ok (s := { s with opa := r.setWidth 32, opb := c.setWidth 32 }) hd
    (coordsOutOfDomain_eq_false.2 ⟨setWidth_word_le r, setWidth_word_le c⟩) ?_
  rw [pixelRow_eq, pixelCol_eq, hrow, hcol]
  exact hv

/-- Settles O56: a finished sweep has every cell's pixel in its byte, and PIXEL computes the same pixel again, since
the source has kept its bytes. -/
theorem sweepAgreesWithPixel : Obligations.SweepAgreesWithPixel := by
  intro s h hb hr hc hi ha hdis
  obtain ⟨t, hrun, ht, hf⟩ := run_finishSweep (sweepAt_zero h hb hr hc hi) ha
  obtain ⟨-, -, hconf, hsrc, hcells⟩ := sweepFinished_finishSweep (ht.underWay hdis) hf
  have hdom := sourceOutOfDomain_of_sweep h hb
  refine ⟨_, hrun, rfl, rfl, fun r c hcell => ⟨hcells r c hcell, ?_⟩⟩
  refine exec_pixel_at ((sourceOutOfDomain_congr hconf).trans hdom) ?_
  rw [pixel_congr hconf hsrc hdom]
  exact hcells r c hcell

end Sys2Proof.Machine
end

section
/-! PROOF. Family 60_exceptions: recording an error (spec/60_exceptions.md R192 to R195), the two orders of a STATUS write
and the finish step (R201), the idle engine (R211), and that the block never stops of itself (R190). -/

namespace Sys2Proof.Machine

/-! ### Recording an error -/

theorem raiseError_of_clear {s : State} (h : s.err = false) (code : ErrCode) :
    raiseError code s = { s with err := true, errcode := code.bits } := by
  rw [raiseError, h]
  rfl

/-- An error raised while ERR = 1 leaves no trace in STATUS (R192). -/
theorem raiseError_of_set {s : State} (h : s.err = true) (code : ErrCode) : raiseError code s = s := by
  rw [raiseError, if_pos h, ← h]

theorem step_of_command {s : State} {i : Instr} (h : nextIsCommand s i) : step s = exec i (written (popped s)) := by
  obtain ⟨hw, hb⟩ := h
  rw [step_of_freeWrite hw (.inl hb), writeRegFree, issueCommand, decode_encode]

/-- Settles O31: the codes are R191's table, and the issue of a command does not look at ERR. -/
theorem firstErrorGivesTheCode : Obligations.FirstErrorGivesTheCode := fun code _ =>
  ⟨fun h => raiseError_of_clear h code, fun h => raiseError_of_set h code, by cases code <;> rfl,
    fun _ _ h => step_of_command h⟩

/-- The registers that R40 locks while BUSY = 1. -/
theorem regLocked_iff {r : Reg} :
    regLocked r = true ↔
      r = .cmd ∨ r = .scaleX ∨ r = .scaleY ∨ r = .srcBase ∨ r = .srcDim ∨ r = .dstBase ∨ r = .dstDim := by
  cases r <;> decide

/-- Settles O26: the seven registers are the locked ones, whose writes while BUSY = 1 raise BUSY_WRITE. -/
theorem lockedWritesWhileBusyAreRejected : Obligations.LockedWritesWhileBusyAreRejected :=
  fun _ _ _ hb hr h => step_of_lockedWrite h hb (regLocked_iff.2 hr)

/-- The illegal words of both kinds, by their bytes (R93). -/
theorem decode_illegal_of_fields {v : Word} (h : v.toNat / 2 ^ 8 ≠ 0 ∨ 0x06 ≤ v.toNat % 2 ^ 8) :
    ∃ why, decode v = .illegal why := by
  by_cases hr : v.toNat / 256 = 0
  · exact ⟨_, decode_eq_unassigned_iff.2 (by omega)⟩
  · exact ⟨_, decode_of_rsvd hr⟩

/-- Settles O30: such a word decodes to one of the two kinds of illegal word, and each raises ILLEGAL_CMD. -/
theorem illegalWordRecordsIllegalCmd : Obligations.IllegalWordRecordsIllegalCmd := by
  intro s v h hb hv
  obtain ⟨why, hd⟩ := decode_illegal_of_fields hv
  exact step_of_illegalWord h hb hd

theorem exec_pixel_of_outside {s : State} (h : sourceOutOfDomain s = true ∨ coordsOutOfDomain s = true) :
    exec .pixel s = .next (raiseError .domain s) :=
  if_pos (Bool.or_eq_true_iff.2 h)

theorem exec_resample_of_outside {s : State} (h : sourceOutOfDomain s = true) :
    exec .resample s = .next (raiseError .domain s) :=
  if_pos h

/-- Settles O20: the source's conditions are checked by both commands, the coordinates' by PIXEL alone. -/
theorem domainViolationChangesOnlyStatus : Obligations.DomainViolationChangesOnlyStatus := by
  refine ⟨fun s h => ?_, fun s h => exec_pixel_of_outside (.inr (coordsOutOfDomain_eq_true.2 h))⟩
  have hd := sourceOutOfDomain_eq_true.2 h
  exact ⟨exec_pixel_of_outside (.inl hd), exec_resample_of_outside hd⟩

/-! ### The engine's turn beside the host's accesses -/

/-- Settles O42: with BUSY = 0 neither of the engine's steps is enabled. -/
theorem idleEngineHoldsAllState : Obligations.IdleEngineHoldsAllState := by
  intro s h hb
  rw [step_of_engine h, engineResult_of_idle (engineTurn_cases (popped s)) hb]

/-- A STATUS write that comes next is taken, BUSY or not, and the run goes on from there. -/
theorem run_statusWrite (s : State) (v : Word) (rest : List Event) (n : Nat) :
    core.run (n + 1) { s with inbox := writeEvent s .status v :: rest } =
      core.run n (writeStatus v (written { s with inbox := rest })) :=
  run_of_step (step_of_freeWrite (r := .status) (v := v) rfl (.inr rfl)) n

/-- An engine's turn that comes next while the finish step is enabled ends the sweep, and the run goes on from there. -/
theorem run_finishTurn {s : State} (hf : finishEnabled s = true) (rest : List Event) (n : Nat) :
    core.run (n + 1) { s with inbox := .engine :: rest } = core.run n (finishSweep { s with inbox := rest }) :=
  run_of_step (s := { s with inbox := .engine :: rest }) (step_of_finish (.inr rfl) hf) n

/-- Settles O44: the run composes the two updates in the order of the inbox, and the write leaves the finish step
enabled. -/
theorem clearingDoneRacesTheFinishStep : Obligations.ClearingDoneRacesTheFinishStep := by
  intro s v rest hb hend hv
  have hfinish : finishEnabled s = true := finishEnabled_iff.2 ⟨hb, .inl hend⟩
  constructor
  · exact ⟨_, (run_statusWrite s v (.engine :: rest) 1).trans
      (run_finishTurn (s := writeStatus v (written s)) hfinish rest 0), rfl, rfl⟩
  · exact ⟨_, (run_finishTurn hfinish (writeEvent s .status v :: rest) 1).trans
      (run_statusWrite (finishSweep s) v rest 0), by simp [hv], rfl⟩

/-! ### Which steps are refused -/

theorem hostGridRead_of_breach {s : State} {a : Word} (hb : s.busy = true) (h : inDest s a = true) :
    hostGridRead a s = .refused .hostBreaksGridDuty :=
  if_pos (Bool.and_eq_true_iff.2 ⟨hb, h⟩)

/-- Settles O50: `step_next_or_refused` gives the outcomes and the refusal's cause, and each such access is refused. -/
theorem stepStopsOnlyOnABrokenDuty : Obligations.StepStopsOnlyOnABrokenDuty := by
  intro s
  refine ⟨(step_next_or_refused s).imp_right And.left, fun h => ?_, ?_⟩
  · obtain ⟨t, ht⟩ | ⟨-, hcause⟩ := step_next_or_refused s
    · cases ht.symm.trans h
    · exact hcause
  · rintro ⟨hb, ⟨a, he, hin⟩ | ⟨a, v, he, hin⟩⟩
    · rw [step_of_head he]
      exact hostGridRead_of_breach (s := popped s) hb hin
    · rw [step_of_head he]
      exact hostGridWrite_of_breach (s := popped s) hb hin v

end Sys2Proof.Machine
end

section
/-! PROOF. Family 70_reset_and_hazards: the reset values and the reset step (spec/70_reset_and_hazards.md R220 to R224),
the end of every sweep (R233), and the end of a run (R234). -/

namespace Sys2Proof.Machine

/-! ### Reset -/

theorem readReg_reset (r : Reg) : readReg State.reset r = 0 := by cases r <;> rfl

/-- The reset step is `resetBlock` on the state without the event (R220). -/
theorem step_of_reset {s : State} (h : nextIsReset s) : step s = .next (resetBlock (popped s)) := step_of_head h

/-- Settles O34: the source is empty at reset, so it is outside the domain of both commands (R225). -/
theorem resetValues : Obligations.ResetValues := by
  have hd : sourceOutOfDomain State.reset = true := sourceOutOfDomain_eq_true.2 (.inl rfl)
  refine ⟨readReg_reset, rfl, rfl, rfl, rfl, rfl, rfl, ?_, ?_⟩
  · rw [exec_pixel_of_outside (.inl hd), raiseError_of_clear rfl]
    rfl
  · rw [exec_resample_of_outside hd, raiseError_of_clear rfl]
    rfl

/-- Settles O35: the step is `resetBlock`, which gives every field of the block its reset value. -/
theorem resetStepKeepsOnlyTheMemory : Obligations.ResetStepKeepsOnlyTheMemory := fun _ h => step_of_reset h

/-! ### Every sweep ends -/

/-- While BUSY = 1 the engine always has a step (R154, R155): a cursor that is not at the end of the rows is in a row of
the grid. -/
theorem finish_or_pixel_enabled {s : State} (h : s.Inv) (hb : s.busy = true) :
    finishEnabled s = true ∨ pixelEnabled s = true := by
  obtain ⟨-, -, -, hs⟩ := h
  obtain ⟨-, -, hle, -, -⟩ := hs hb
  by_cases hend : s.curRow = dstRows s ∨ dstCols s = 0
  · exact .inl (finishEnabled_iff.2 ⟨hb, hend⟩)
  · obtain ⟨hrow, hcol⟩ := not_or.1 hend
    exact .inr (pixelEnabled_iff.2 ⟨hb, BitVec.lt_of_le_ne hle hrow, (BitVec.pos_iff_ne_zero _).2 hcol⟩)

/-- The cell of an enabled pixel step is one that is not done yet (R157). -/
theorem cellsDone_lt_of_pixelEnabled {s : State} (h : s.Inv) (hp : pixelEnabled s = true) :
    cellsDone s < destCells s := by
  obtain ⟨-, hr, -⟩ := pixelEnabled_iff.1 hp
  exact cell_place_lt hr (curCol_lt_of_pixelEnabled h hp)

/-- An engine's turn ends the sweep, or it does one more cell of it (R154 to R156). -/
theorem engineResult_ends_or_does_a_cell {s t : State} (hr : EngineResult s t) (h : s.Inv) (hb : s.busy = true) :
    t.busy = false ∨ (t.busy = true ∧ cellsDone s < destCells s ∧ cellsDone t = cellsDone s + 1) := by
  cases hr with
  | idle hf hp => simpa [hf, hp] using finish_or_pixel_enabled h hb
  | finish => exact .inl rfl
  | readRefused => exact .inl rfl
  | writeRefused => exact .inl rfl
  | cell hp v =>
    exact .inr ⟨by simp [hb], cellsDone_lt_of_pixelEnabled h hp, cellsDone_advanceCursor (inv_storeByte _ v h) hp⟩

theorem engineResult_inbox {s t : State} (h : EngineResult s t) : t.inbox = s.inbox := by
  cases h <;> simp

theorem step_of_inbox_nil {s : State} (h : s.inbox = []) : step s = .next (engineTurn s) := by
  rw [step_of_engine (nextIsEngine_of_inbox_nil h), popped_of_inbox_nil h]

/-- Settles O57: by induction on the cells left, one of which every turn does that does not end the sweep. -/
theorem everySweepEnds : Obligations.EverySweepEnds := by
  intro s h hb hi
  induction hleft : destCells s - cellsDone s using Nat.strong_induction_on generalizing s with
  | _ left ih =>
    have hturn := engineTurn_cases s
    have hstep := step_of_inbox_nil hi
    obtain hend | ⟨hb', hlt, hcells⟩ := engineResult_ends_or_does_a_cell hturn h hb
    · exact ⟨1, _, by omega, run_of_step hstep 0, hend⟩
    · have hdest := destCells_congr (engineResult_sameConfig hturn)
      obtain ⟨n, t, hn, hrun, ht⟩ := ih _ (by omega) (engineTurn s) (inv_of_engineResult h hturn) hb'
        ((engineResult_inbox hturn).trans hi) rfl
      exact ⟨n + 1, t, by omega, (run_of_step hstep n).trans hrun, ht⟩

/-! ### The end of a run -/

/-- The only entries to come after the end of a run are engine's turns and resets, so what is no reset is an engine's
turn (R234). -/
theorem nextIsEngine_of_runEnded {s : State} (h : runEnded s = true) (hr : ¬nextIsReset s) : nextIsEngine s := by
  obtain ⟨-, hall⟩ := runEnded_iff.1 h
  cases he : s.inbox.head? with
  | none => exact .inl he
  | some e =>
    obtain rfl | rfl := hall e (List.mem_of_head? he)
    · exact .inr he
    · exact absurd he hr

theorem runEnded_popped {s : State} (h : runEnded s = true) : runEnded (popped s) = true := by
  obtain ⟨hb, hall⟩ := runEnded_iff.1 h
  exact runEnded_iff.2 ⟨hb, fun e he => hall e (List.mem_of_mem_tail he)⟩

/-- Settles O60: a further step that is no reset is an engine's turn, which with BUSY = 0 only leaves the inbox. -/
theorem endedRunHoldsItsObservation : Obligations.EndedRunHoldsItsObservation := by
  refine ⟨fun _ => runEnded_iff, fun s t h hr ht => ?_, fun _ _ => observation_eq_iff.symm⟩
  obtain ⟨hb, -⟩ := runEnded_iff.1 h
  cases (idleEngineHoldsAllState s (nextIsEngine_of_runEnded h hr) hb).symm.trans ht
  exact ⟨runEnded_popped h, rfl⟩

end Sys2Proof.Machine
end

section
/-! PROOF. Family other: an access outside the window (spec/20_memory.md R61), and the polls of WAITIDLE
(spec/30_encoding.md R98, spec/70_reset_and_hazards.md R233). -/

namespace Sys2Proof.Machine

/-! ### Accesses outside the window -/

/-- The window is decoded before the access is looked at: outside it a read and a write are answered alike. -/
theorem portAccess_of_outside {s : State} {acc : PortAccess} (h : inWindow s acc.addr = false) :
    portAccess acc s = .next { s with response := .none } := by
  unfold portAccess
  rw [h]
  rfl

/-- Settles O29: an address below the window or past its 64 bytes is not in the window. -/
theorem accessOutsideTheWindowIsNotSeen : Obligations.AccessOutsideTheWindowIsNotSeen := by
  intro s acc h hout
  have hw : inWindow (popped s) acc.addr = false := by
    rw [← Bool.not_eq_true, inWindow_iff, popped_platform, Config.windowBytes]
    omega
  rw [step_of_head h]
  exact portAccess_of_outside hw

/-! ### The polls of WAITIDLE -/

/-- The state in which a poll of WAITIDLE leaves the block: STATUS has been read. -/
def polled (s : State) : State := { s with response := .data (statusWord s) }

@[simp] theorem polled_cellsDone (s : State) : cellsDone (polled s) = cellsDone s := rfl

@[simp] theorem polled_destCells (s : State) : destCells (polled s) = destCells s := rfl

/-- A poll that reads BUSY = 0 is the last one (R98). -/
theorem step_of_lastPoll {s : State} (h : s.inbox.head? = some .waitIdle) (hb : s.busy = false) :
    step s = .next (polled (popped s)) := by
  rw [step_of_head h]
  exact congrArg Host.Outcome.next (pollIdle_of_idle (s := popped s) hb)

/-- After a poll that reads BUSY = 1, an engine's turn is to come and then the next poll (R98, log entry 7). -/
theorem step_of_failedPoll {s : State} {rest : List Event} (hi : s.inbox = .waitIdle :: rest) (hb : s.busy = true) :
    step s = .next (State.before .engine (polled s)) := by
  have hpoll : step s = .next (pollIdle (popped s)) := step_of_head (e := .waitIdle) (hi ▸ rfl)
  rw [hpoll, pollIdle_of_busy (s := popped s) hb, popped_inbox, hi, List.tail_cons, ← hi]
  rfl

/-- A failed poll and the engine's turn after it: the same entries are still to come. -/
theorem run_failedPoll {s : State} {rest : List Event} (hi : s.inbox = .waitIdle :: rest) (hb : s.busy = true)
    (n : Nat) : core.run (n + 2) s = core.run n (engineTurn (polled s)) :=
  (run_of_step (step_of_failedPoll hi hb) (n + 1)).trans (run_of_step (step_of_engine (.inr rfl)) n)

/-- From `s`, some run of at most `bound` steps ends with no event left, BUSY = 0, and the last value read that of
STATUS. `Obligations.WaitIdleEnds` says it of the states whose one event is WAITIDLE. -/
def EndsIdleWithin (bound : Nat) (s : State) : Prop :=
  ∃ n t, n ≤ bound ∧ core.run n s = .next t ∧ t.inbox = [] ∧ t.busy = false ∧ t.response = .data (statusWord t)

theorem EndsIdleWithin.mono {m n : Nat} {s : State} (h : EndsIdleWithin m s) (hmn : m ≤ n) : EndsIdleWithin n s := by
  obtain ⟨k, t, hk, hend⟩ := h
  exact ⟨k, t, hk.trans hmn, hend⟩

theorem endsIdleWithin_of_idle {s : State} (hi : s.inbox = [.waitIdle]) (hb : s.busy = false) :
    EndsIdleWithin 1 s :=
  ⟨1, _, le_rfl, run_of_step (step_of_lastPoll (hi ▸ rfl) hb) 0, congrArg List.tail hi, hb, rfl⟩

theorem endsIdleWithin_of_failedPoll {s : State} {rest : List Event} {bound : Nat}
    (hi : s.inbox = .waitIdle :: rest) (hb : s.busy = true) (h : EndsIdleWithin bound (engineTurn (polled s))) :
    EndsIdleWithin (bound + 2) s := by
  obtain ⟨n, t, hn, hrun, hend⟩ := h
  exact ⟨n + 2, t, Nat.add_le_add_right hn 2, (run_failedPoll hi hb n).trans hrun, hend⟩

/-- By induction on the cells left: the engine's turn after a failed poll does one of them, or it ends the sweep and
the next poll is the last. -/
theorem endsIdleWithin_cellsLeft {s : State} (h : s.Inv) (hi : s.inbox = [.waitIdle]) :
    EndsIdleWithin (2 * (destCells s - cellsDone s + 1) + 1) s := by
  induction hleft : destCells s - cellsDone s using Nat.strong_induction_on generalizing s with
  | _ left ih =>
    cases hb : s.busy with
    | false => exact (endsIdleWithin_of_idle hi hb).mono (by omega)
    | true =>
      have hturn := engineTurn_cases (polled s)
      have hinv : (polled s).Inv := h
      have hi' := (engineResult_inbox hturn).trans hi
      have hrest : EndsIdleWithin (2 * left + 1) (engineTurn (polled s)) := by
        obtain hend | ⟨-, hlt, hcells⟩ := engineResult_ends_or_does_a_cell hturn hinv hb
        · exact (endsIdleWithin_of_idle hi' hend).mono (by omega)
        · have hdest := destCells_congr (engineResult_sameConfig hturn)
          simp only [polled_cellsDone, polled_destCells] at hlt hcells hdest
          exact (ih _ (by omega) (inv_of_engineResult hinv hturn) hi' rfl).mono (by omega)
      exact endsIdleWithin_of_failedPoll hi hb hrest

/-- Settles O58: no more cells are left than the destination has. -/
theorem waitIdleEnds : Obligations.WaitIdleEnds := fun _ h hi =>
  (endsIdleWithin_cellsLeft h hi).mono (by omega)

end Sys2Proof.Machine
end
